-- ==== Sys2Proof/Word.lean ====
section
/-! DEFINITION. The two word types of the machine (spec/00_scope.md R5, R6): a byte is 8 bits, an address 16 bits. -/

namespace Sys2Proof

/-- A byte: an unsigned 8-bit value (R6). -/
abbrev Byte := BitVec 8

/-- An address, or any 16-bit value (R6). -/
abbrev Word := BitVec 16

end Sys2Proof
end

