-- ==== Sys2Proof/Config.lean ====
section
/-! DEFINITION. The parameters of the block and the values the spec gives them (spec/00_scope.md R5).
No value of this machine is left open (spec/93_implementation_defined.md section 1), so there is no free value here. -/

namespace Sys2Proof.Config

/-- `LOAD_ORIGIN`: where `Load` places a program (R5, R221). -/
def loadOrigin : Word := 0x8000

/-- `RESET_VECTOR`: the low byte of the little-endian reset vector lies here (R5, R57). -/
def resetVector : Word := 0xFFFC

/-- `P_POWER_UP`: the status byte after `PowerOn` and after `Reset`, InterruptDisable and Break2 set (R5, R31). -/
def powerUpStatus : Byte := 0x24

/-- The longest program `Load` accepts: the region from `LOAD_ORIGIN` to 0xFFFF (R221). -/
def maxLoad : Nat := 0x8000

/-- `MEM_SIZE`: the number of addressable bytes (R5, R50). -/
def memSize : Nat := 0x10000

/-- `BIT_WRITES_A`: whether `BIT` stores `A & operand` into `A`.
DESIGN CHOICE of the spec itself (R5, R163, decision D5): false. Unsafe against the repository; log 7. -/
def bitWritesA : Bool := false

end Sys2Proof.Config
end

