-- ==== Sys2Proof/Syntax.lean ====
section
/-! DEFINITION. The instructions: one constructor of `Instr` for each of the 67 rows of spec/opcode_table.json
(spec/30_encoding.md R83), in the table's order, with the mnemonics, formats, addressing modes and operand forms they
are made of. -/

namespace Sys2Proof

/-- The 24 mnemonics (spec/30_encoding.md R83). -/
inductive Mnemonic where
  | adc | and | asl | bcc | bcs | beq | bmi | bne
  | bpl | bvc | bvs | bit | clc | cld | cli | clv
  | cmp | cpx | cpy | lda | sta | tax | inx | brk
  deriving DecidableEq, Repr

/-- The addressing modes of the decoder's table and of the resolver: the nine of spec/40_addressing_modes.md
R101 to R109 and the sentinel `none` (R110), which the implied, accumulator and relative rows carry (R113). -/
inductive Mode where
  | immediate | zeroPage | zeroPageX | zeroPageY | absolute | absoluteX | absoluteY | indirectX | indirectY | none
  deriving DecidableEq, Repr

/-- The five formats (spec/30_encoding.md R80). -/
inductive Format where
  | imp | imm | zpg | rel | abs
  deriving DecidableEq, Repr

/-- A memory operand as decoded from the operand bytes (spec/30_encoding.md R82): its mode with the byte or the
address it carries. `none` is the operand of an instruction that has no memory operand; resolving it is the error
of spec/40_addressing_modes.md R110. -/
inductive Operand where
  | immediate (imm8 : Byte)
  | zeroPage (zp8 : Byte)
  | zeroPageX (zp8 : Byte)
  | zeroPageY (zp8 : Byte)
  | absolute (addr : Word)
  | absoluteX (addr : Word)
  | absoluteY (addr : Word)
  | indirectX (zp8 : Byte)
  | indirectY (zp8 : Byte)
  | none
  deriving DecidableEq, Repr

/-- The addressing mode of an operand. -/
def Operand.mode : Operand → Mode
  | .immediate _ => .immediate
  | .zeroPage _ => .zeroPage
  | .zeroPageX _ => .zeroPageX
  | .zeroPageY _ => .zeroPageY
  | .absolute _ => .absolute
  | .absoluteX _ => .absoluteX
  | .absoluteY _ => .absoluteY
  | .indirectX _ => .indirectX
  | .indirectY _ => .indirectY
  | .none => .none

/-- The instructions, each with its operand field: `imm8`, `zp8` or `rel8` a byte, `addr` the 16-bit value
`hi8, lo8` (spec/30_encoding.md R82, R83). -/
inductive Instr where
  | adcImm (imm8 : Byte)
  | adcZp (zp8 : Byte)
  | adcZpX (zp8 : Byte)
  | adcAbs (addr : Word)
  | adcAbsX (addr : Word)
  | adcAbsY (addr : Word)
  | adcIndX (zp8 : Byte)
  | adcIndY (zp8 : Byte)
  | andImm (imm8 : Byte)
  | andZp (zp8 : Byte)
  | andZpX (zp8 : Byte)
  | andAbs (addr : Word)
  | andAbsX (addr : Word)
  | andAbsY (addr : Word)
  | andIndX (zp8 : Byte)
  | andIndY (zp8 : Byte)
  | aslAcc
  | aslZp (zp8 : Byte)
  | aslZpX (zp8 : Byte)
  | aslAbs (addr : Word)
  | aslAbsX (addr : Word)
  | bcc (rel8 : Byte)
  | bcs (rel8 : Byte)
  | beq (rel8 : Byte)
  | bmi (rel8 : Byte)
  | bne (rel8 : Byte)
  | bpl (rel8 : Byte)
  | bvc (rel8 : Byte)
  | bvs (rel8 : Byte)
  | bitZp (zp8 : Byte)
  | bitAbs (addr : Word)
  | clc
  | cld
  | cli
  | clv
  | cmpImm (imm8 : Byte)
  | cmpZp (zp8 : Byte)
  | cmpZpX (zp8 : Byte)
  | cmpAbs (addr : Word)
  | cmpAbsX (addr : Word)
  | cmpAbsY (addr : Word)
  | cmpIndX (zp8 : Byte)
  | cmpIndY (zp8 : Byte)
  | cpxImm (imm8 : Byte)
  | cpxZp (zp8 : Byte)
  | cpxAbs (addr : Word)
  | cpyImm (imm8 : Byte)
  | cpyZp (zp8 : Byte)
  | cpyAbs (addr : Word)
  | ldaImm (imm8 : Byte)
  | ldaZp (zp8 : Byte)
  | ldaZpX (zp8 : Byte)
  | ldaAbs (addr : Word)
  | ldaAbsX (addr : Word)
  | ldaAbsY (addr : Word)
  | ldaIndX (zp8 : Byte)
  | ldaIndY (zp8 : Byte)
  | staZp (zp8 : Byte)
  | staZpX (zp8 : Byte)
  | staAbs (addr : Word)
  | staAbsX (addr : Word)
  | staAbsY (addr : Word)
  | staIndX (zp8 : Byte)
  | staIndY (zp8 : Byte)
  | tax
  | inx
  | brk
  deriving DecidableEq, Repr

/-- The mnemonic of an instruction (spec/30_encoding.md R83). -/
def Instr.mnemonic : Instr → Mnemonic
  | .adcImm _ => .adc
  | .adcZp _ => .adc
  | .adcZpX _ => .adc
  | .adcAbs _ => .adc
  | .adcAbsX _ => .adc
  | .adcAbsY _ => .adc
  | .adcIndX _ => .adc
  | .adcIndY _ => .adc
  | .andImm _ => .and
  | .andZp _ => .and
  | .andZpX _ => .and
  | .andAbs _ => .and
  | .andAbsX _ => .and
  | .andAbsY _ => .and
  | .andIndX _ => .and
  | .andIndY _ => .and
  | .aslAcc => .asl
  | .aslZp _ => .asl
  | .aslZpX _ => .asl
  | .aslAbs _ => .asl
  | .aslAbsX _ => .asl
  | .bcc _ => .bcc
  | .bcs _ => .bcs
  | .beq _ => .beq
  | .bmi _ => .bmi
  | .bne _ => .bne
  | .bpl _ => .bpl
  | .bvc _ => .bvc
  | .bvs _ => .bvs
  | .bitZp _ => .bit
  | .bitAbs _ => .bit
  | .clc => .clc
  | .cld => .cld
  | .cli => .cli
  | .clv => .clv
  | .cmpImm _ => .cmp
  | .cmpZp _ => .cmp
  | .cmpZpX _ => .cmp
  | .cmpAbs _ => .cmp
  | .cmpAbsX _ => .cmp
  | .cmpAbsY _ => .cmp
  | .cmpIndX _ => .cmp
  | .cmpIndY _ => .cmp
  | .cpxImm _ => .cpx
  | .cpxZp _ => .cpx
  | .cpxAbs _ => .cpx
  | .cpyImm _ => .cpy
  | .cpyZp _ => .cpy
  | .cpyAbs _ => .cpy
  | .ldaImm _ => .lda
  | .ldaZp _ => .lda
  | .ldaZpX _ => .lda
  | .ldaAbs _ => .lda
  | .ldaAbsX _ => .lda
  | .ldaAbsY _ => .lda
  | .ldaIndX _ => .lda
  | .ldaIndY _ => .lda
  | .staZp _ => .sta
  | .staZpX _ => .sta
  | .staAbs _ => .sta
  | .staAbsX _ => .sta
  | .staAbsY _ => .sta
  | .staIndX _ => .sta
  | .staIndY _ => .sta
  | .tax => .tax
  | .inx => .inx
  | .brk => .brk

/-- The memory operand of an instruction; `none` for the implied, accumulator and relative rows
(spec/40_addressing_modes.md R113). -/
def Instr.operand : Instr → Operand
  | .adcImm imm8 => .immediate imm8
  | .adcZp zp8 => .zeroPage zp8
  | .adcZpX zp8 => .zeroPageX zp8
  | .adcAbs addr => .absolute addr
  | .adcAbsX addr => .absoluteX addr
  | .adcAbsY addr => .absoluteY addr
  | .adcIndX zp8 => .indirectX zp8
  | .adcIndY zp8 => .indirectY zp8
  | .andImm imm8 => .immediate imm8
  | .andZp zp8 => .zeroPage zp8
  | .andZpX zp8 => .zeroPageX zp8
  | .andAbs addr => .absolute addr
  | .andAbsX addr => .absoluteX addr
  | .andAbsY addr => .absoluteY addr
  | .andIndX zp8 => .indirectX zp8
  | .andIndY zp8 => .indirectY zp8
  | .aslAcc => .none
  | .aslZp zp8 => .zeroPage zp8
  | .aslZpX zp8 => .zeroPageX zp8
  | .aslAbs addr => .absolute addr
  | .aslAbsX addr => .absoluteX addr
  | .bcc _ => .none
  | .bcs _ => .none
  | .beq _ => .none
  | .bmi _ => .none
  | .bne _ => .none
  | .bpl _ => .none
  | .bvc _ => .none
  | .bvs _ => .none
  | .bitZp zp8 => .zeroPage zp8
  | .bitAbs addr => .absolute addr
  | .clc => .none
  | .cld => .none
  | .cli => .none
  | .clv => .none
  | .cmpImm imm8 => .immediate imm8
  | .cmpZp zp8 => .zeroPage zp8
  | .cmpZpX zp8 => .zeroPageX zp8
  | .cmpAbs addr => .absolute addr
  | .cmpAbsX addr => .absoluteX addr
  | .cmpAbsY addr => .absoluteY addr
  | .cmpIndX zp8 => .indirectX zp8
  | .cmpIndY zp8 => .indirectY zp8
  | .cpxImm imm8 => .immediate imm8
  | .cpxZp zp8 => .zeroPage zp8
  | .cpxAbs addr => .absolute addr
  | .cpyImm imm8 => .immediate imm8
  | .cpyZp zp8 => .zeroPage zp8
  | .cpyAbs addr => .absolute addr
  | .ldaImm imm8 => .immediate imm8
  | .ldaZp zp8 => .zeroPage zp8
  | .ldaZpX zp8 => .zeroPageX zp8
  | .ldaAbs addr => .absolute addr
  | .ldaAbsX addr => .absoluteX addr
  | .ldaAbsY addr => .absoluteY addr
  | .ldaIndX zp8 => .indirectX zp8
  | .ldaIndY zp8 => .indirectY zp8
  | .staZp zp8 => .zeroPage zp8
  | .staZpX zp8 => .zeroPageX zp8
  | .staAbs addr => .absolute addr
  | .staAbsX addr => .absoluteX addr
  | .staAbsY addr => .absoluteY addr
  | .staIndX zp8 => .indirectX zp8
  | .staIndY zp8 => .indirectY zp8
  | .tax => .none
  | .inx => .none
  | .brk => .none

/-- The format of an instruction (spec/30_encoding.md R80, R83). -/
def Instr.format : Instr → Format
  | .adcImm _ => .imm
  | .adcZp _ => .zpg
  | .adcZpX _ => .zpg
  | .adcAbs _ => .abs
  | .adcAbsX _ => .abs
  | .adcAbsY _ => .abs
  | .adcIndX _ => .zpg
  | .adcIndY _ => .zpg
  | .andImm _ => .imm
  | .andZp _ => .zpg
  | .andZpX _ => .zpg
  | .andAbs _ => .abs
  | .andAbsX _ => .abs
  | .andAbsY _ => .abs
  | .andIndX _ => .zpg
  | .andIndY _ => .zpg
  | .aslAcc => .imp
  | .aslZp _ => .zpg
  | .aslZpX _ => .zpg
  | .aslAbs _ => .abs
  | .aslAbsX _ => .abs
  | .bcc _ => .rel
  | .bcs _ => .rel
  | .beq _ => .rel
  | .bmi _ => .rel
  | .bne _ => .rel
  | .bpl _ => .rel
  | .bvc _ => .rel
  | .bvs _ => .rel
  | .bitZp _ => .zpg
  | .bitAbs _ => .abs
  | .clc => .imp
  | .cld => .imp
  | .cli => .imp
  | .clv => .imp
  | .cmpImm _ => .imm
  | .cmpZp _ => .zpg
  | .cmpZpX _ => .zpg
  | .cmpAbs _ => .abs
  | .cmpAbsX _ => .abs
  | .cmpAbsY _ => .abs
  | .cmpIndX _ => .zpg
  | .cmpIndY _ => .zpg
  | .cpxImm _ => .imm
  | .cpxZp _ => .zpg
  | .cpxAbs _ => .abs
  | .cpyImm _ => .imm
  | .cpyZp _ => .zpg
  | .cpyAbs _ => .abs
  | .ldaImm _ => .imm
  | .ldaZp _ => .zpg
  | .ldaZpX _ => .zpg
  | .ldaAbs _ => .abs
  | .ldaAbsX _ => .abs
  | .ldaAbsY _ => .abs
  | .ldaIndX _ => .zpg
  | .ldaIndY _ => .zpg
  | .staZp _ => .zpg
  | .staZpX _ => .zpg
  | .staAbs _ => .abs
  | .staAbsX _ => .abs
  | .staAbsY _ => .abs
  | .staIndX _ => .zpg
  | .staIndY _ => .zpg
  | .tax => .imp
  | .inx => .imp
  | .brk => .imp

/-- The addressing mode of an instruction's row: that of its memory operand. -/
def Instr.mode (i : Instr) : Mode := i.operand.mode

end Sys2Proof
end

