-- ==== Sys2Proof/WellFormed.lean ====
section
/-! DEFINITION. What is well formed: the (mnemonic, mode) pairs that the opcode map has, a resolvable operand, and a
program that `Load` accepts. Operand bytes are never ill formed (spec/30_encoding.md R88). -/

namespace Sys2Proof

/-- The addressing modes each mnemonic has (spec/30_encoding.md R83, decision D3). ASL has the accumulator form,
whose mode is `none` (spec/40_addressing_modes.md R113), and four memory forms. -/
def modesOf : Mnemonic → List Mode
  | .adc | .and | .cmp | .lda =>
    [.immediate, .zeroPage, .zeroPageX, .absolute, .absoluteX, .absoluteY, .indirectX, .indirectY]
  | .sta => [.zeroPage, .zeroPageX, .absolute, .absoluteX, .absoluteY, .indirectX, .indirectY]
  | .asl => [.none, .zeroPage, .zeroPageX, .absolute, .absoluteX]
  | .bit => [.zeroPage, .absolute]
  | .cpx | .cpy => [.immediate, .zeroPage, .absolute]
  | .bcc | .bcs | .beq | .bmi | .bne | .bpl | .bvc | .bvs => [.none]
  | .clc | .cld | .cli | .clv | .tax | .inx | .brk => [.none]

/-- Whether the opcode map has a row for a mnemonic with a mode. -/
def pairWellFormed (m : Mnemonic) (md : Mode) : Bool := (modesOf m).contains md

/-- An instruction is well formed when the opcode map has its mnemonic with its mode. -/
def Instr.wellFormed (i : Instr) : Bool := pairWellFormed i.mnemonic i.mode

/-- Whether the resolver has an address for a mode: every mode but the sentinel (spec/40_addressing_modes.md R110). -/
def Mode.resolvable (m : Mode) : Bool := m != .none

/-- Whether `Load` accepts a program: at most 0x8000 bytes (spec/70_reset_and_hazards.md R221). -/
def programWellFormed (bytes : List Byte) : Bool := bytes.length ≤ Config.maxLoad

end Sys2Proof
end

