-- ==== Sys2Proof/Decode.lean ====
section
/-! DEFINITION. The opcode decoder (spec/30_encoding.md R80 to R88) as one table of 67 rows, the decoder that reads
it, and the encoder, written from the same table of the spec. -/

namespace Sys2Proof

/-- The 16-bit value of a high and a low byte, `hi * 256 + lo` (spec/00_scope.md R6). -/
def joinBytes (hi lo : Byte) : Word := BitVec.ofNat 16 (hi.toNat * 256 + lo.toNat)

/-- Bits 7 to 0 of a 16-bit value. -/
def lowByte (w : Word) : Byte := BitVec.ofNat 8 w.toNat

/-- Bits 15 to 8 of a 16-bit value. -/
def highByte (w : Word) : Byte := BitVec.ofNat 8 (w.toNat / 256)

/-- The number of operand bytes of a format (spec/30_encoding.md R80). -/
def Format.operandBytes : Format → Nat
  | .imp => 0
  | .imm => 1
  | .zpg => 1
  | .rel => 1
  | .abs => 2

/-- The length of an instruction in bytes: its opcode and its operand bytes (spec/30_encoding.md R81). -/
def Instr.length (i : Instr) : Nat := 1 + i.format.operandBytes

/-- A row of the decoder's table: the opcode byte (all eight bits are matched, R83), what it stands for, and the
instruction that the two bytes after it complete. -/
structure Row where
  opcode   : Byte
  mnemonic : Mnemonic
  mode     : Mode
  format   : Format
  make     : Byte → Byte → Instr

/-- The rows of ADC, the compares (R83). PRESUMED by the spec (general knowledge) but for the bytes of R84; log 1. -/
def arithmeticRows : List Row :=
  [⟨0x69, .adc, .immediate, .imm, fun lo _ => .adcImm lo⟩,
   ⟨0x65, .adc, .zeroPage, .zpg, fun lo _ => .adcZp lo⟩,
   ⟨0x75, .adc, .zeroPageX, .zpg, fun lo _ => .adcZpX lo⟩,
   ⟨0x6D, .adc, .absolute, .abs, fun lo hi => .adcAbs (joinBytes hi lo)⟩,
   ⟨0x7D, .adc, .absoluteX, .abs, fun lo hi => .adcAbsX (joinBytes hi lo)⟩,
   ⟨0x79, .adc, .absoluteY, .abs, fun lo hi => .adcAbsY (joinBytes hi lo)⟩,
   ⟨0x61, .adc, .indirectX, .zpg, fun lo _ => .adcIndX lo⟩,
   ⟨0x71, .adc, .indirectY, .zpg, fun lo _ => .adcIndY lo⟩,
   ⟨0xC9, .cmp, .immediate, .imm, fun lo _ => .cmpImm lo⟩,
   ⟨0xC5, .cmp, .zeroPage, .zpg, fun lo _ => .cmpZp lo⟩,
   ⟨0xD5, .cmp, .zeroPageX, .zpg, fun lo _ => .cmpZpX lo⟩,
   ⟨0xCD, .cmp, .absolute, .abs, fun lo hi => .cmpAbs (joinBytes hi lo)⟩,
   ⟨0xDD, .cmp, .absoluteX, .abs, fun lo hi => .cmpAbsX (joinBytes hi lo)⟩,
   ⟨0xD9, .cmp, .absoluteY, .abs, fun lo hi => .cmpAbsY (joinBytes hi lo)⟩,
   ⟨0xC1, .cmp, .indirectX, .zpg, fun lo _ => .cmpIndX lo⟩,
   ⟨0xD1, .cmp, .indirectY, .zpg, fun lo _ => .cmpIndY lo⟩,
   ⟨0xE0, .cpx, .immediate, .imm, fun lo _ => .cpxImm lo⟩,
   ⟨0xE4, .cpx, .zeroPage, .zpg, fun lo _ => .cpxZp lo⟩,
   ⟨0xEC, .cpx, .absolute, .abs, fun lo hi => .cpxAbs (joinBytes hi lo)⟩,
   ⟨0xC0, .cpy, .immediate, .imm, fun lo _ => .cpyImm lo⟩,
   ⟨0xC4, .cpy, .zeroPage, .zpg, fun lo _ => .cpyZp lo⟩,
   ⟨0xCC, .cpy, .absolute, .abs, fun lo hi => .cpyAbs (joinBytes hi lo)⟩]

/-- The rows of AND, ASL, BIT (R83). PRESUMED by the spec (general knowledge) but for the bytes of R84; log 1. -/
def logicShiftRows : List Row :=
  [⟨0x29, .and, .immediate, .imm, fun lo _ => .andImm lo⟩,
   ⟨0x25, .and, .zeroPage, .zpg, fun lo _ => .andZp lo⟩,
   ⟨0x35, .and, .zeroPageX, .zpg, fun lo _ => .andZpX lo⟩,
   ⟨0x2D, .and, .absolute, .abs, fun lo hi => .andAbs (joinBytes hi lo)⟩,
   ⟨0x3D, .and, .absoluteX, .abs, fun lo hi => .andAbsX (joinBytes hi lo)⟩,
   ⟨0x39, .and, .absoluteY, .abs, fun lo hi => .andAbsY (joinBytes hi lo)⟩,
   ⟨0x21, .and, .indirectX, .zpg, fun lo _ => .andIndX lo⟩,
   ⟨0x31, .and, .indirectY, .zpg, fun lo _ => .andIndY lo⟩,
   ⟨0x0A, .asl, .none, .imp, fun _ _ => .aslAcc⟩,
   ⟨0x06, .asl, .zeroPage, .zpg, fun lo _ => .aslZp lo⟩,
   ⟨0x16, .asl, .zeroPageX, .zpg, fun lo _ => .aslZpX lo⟩,
   ⟨0x0E, .asl, .absolute, .abs, fun lo hi => .aslAbs (joinBytes hi lo)⟩,
   ⟨0x1E, .asl, .absoluteX, .abs, fun lo hi => .aslAbsX (joinBytes hi lo)⟩,
   ⟨0x24, .bit, .zeroPage, .zpg, fun lo _ => .bitZp lo⟩,
   ⟨0x2C, .bit, .absolute, .abs, fun lo hi => .bitAbs (joinBytes hi lo)⟩]

/-- The rows of the branches (R83). PRESUMED by the spec (general knowledge) but for the bytes of R84; log 1. -/
def branchRows : List Row :=
  [⟨0x90, .bcc, .none, .rel, fun lo _ => .bcc lo⟩,
   ⟨0xB0, .bcs, .none, .rel, fun lo _ => .bcs lo⟩,
   ⟨0xF0, .beq, .none, .rel, fun lo _ => .beq lo⟩,
   ⟨0x30, .bmi, .none, .rel, fun lo _ => .bmi lo⟩,
   ⟨0xD0, .bne, .none, .rel, fun lo _ => .bne lo⟩,
   ⟨0x10, .bpl, .none, .rel, fun lo _ => .bpl lo⟩,
   ⟨0x50, .bvc, .none, .rel, fun lo _ => .bvc lo⟩,
   ⟨0x70, .bvs, .none, .rel, fun lo _ => .bvs lo⟩]

/-- The rows of the flag clears, TAX, INX and the halt opcode (R83). PRESUMED by the spec (general knowledge) but for the bytes of R84; log 1. -/
def impliedRows : List Row :=
  [⟨0x18, .clc, .none, .imp, fun _ _ => .clc⟩,
   ⟨0xD8, .cld, .none, .imp, fun _ _ => .cld⟩,
   ⟨0x58, .cli, .none, .imp, fun _ _ => .cli⟩,
   ⟨0xB8, .clv, .none, .imp, fun _ _ => .clv⟩,
   ⟨0xAA, .tax, .none, .imp, fun _ _ => .tax⟩,
   ⟨0xE8, .inx, .none, .imp, fun _ _ => .inx⟩,
   ⟨0x00, .brk, .none, .imp, fun _ _ => .brk⟩]

/-- The rows of LDA, STA (R83). PRESUMED by the spec (general knowledge) but for the bytes of R84; log 1. -/
def loadStoreRows : List Row :=
  [⟨0xA9, .lda, .immediate, .imm, fun lo _ => .ldaImm lo⟩,
   ⟨0xA5, .lda, .zeroPage, .zpg, fun lo _ => .ldaZp lo⟩,
   ⟨0xB5, .lda, .zeroPageX, .zpg, fun lo _ => .ldaZpX lo⟩,
   ⟨0xAD, .lda, .absolute, .abs, fun lo hi => .ldaAbs (joinBytes hi lo)⟩,
   ⟨0xBD, .lda, .absoluteX, .abs, fun lo hi => .ldaAbsX (joinBytes hi lo)⟩,
   ⟨0xB9, .lda, .absoluteY, .abs, fun lo hi => .ldaAbsY (joinBytes hi lo)⟩,
   ⟨0xA1, .lda, .indirectX, .zpg, fun lo _ => .ldaIndX lo⟩,
   ⟨0xB1, .lda, .indirectY, .zpg, fun lo _ => .ldaIndY lo⟩,
   ⟨0x85, .sta, .zeroPage, .zpg, fun lo _ => .staZp lo⟩,
   ⟨0x95, .sta, .zeroPageX, .zpg, fun lo _ => .staZpX lo⟩,
   ⟨0x8D, .sta, .absolute, .abs, fun lo hi => .staAbs (joinBytes hi lo)⟩,
   ⟨0x9D, .sta, .absoluteX, .abs, fun lo hi => .staAbsX (joinBytes hi lo)⟩,
   ⟨0x99, .sta, .absoluteY, .abs, fun lo hi => .staAbsY (joinBytes hi lo)⟩,
   ⟨0x81, .sta, .indirectX, .zpg, fun lo _ => .staIndX lo⟩,
   ⟨0x91, .sta, .indirectY, .zpg, fun lo _ => .staIndY lo⟩]

/-- The decoder's table: the 67 rows of spec/30_encoding.md R83. -/
def opcodeRows : List Row :=
  arithmeticRows ++ logicShiftRows ++ branchRows ++ impliedRows ++ loadStoreRows

/-- The row of an opcode byte, if the table has one. -/
def rowOf (op : Byte) : Option Row := opcodeRows.find? (fun r => r.opcode == op)

/-- The pure decoder of spec/30_encoding.md R87: a byte to its mnemonic and mode, or unknown (`none`). -/
def decodeOpcode (op : Byte) : Option (Mnemonic × Mode) := (rowOf op).map (fun r => (r.mnemonic, r.mode))

/-- Why bytes are not an instruction. -/
inductive DecodeError where
  /-- The opcode byte is none of the 67 (spec/30_encoding.md R85). -/
  | unknownOpcode (op : Byte)
  /-- There is no byte to decode. -/
  | noBytes
  /-- The bytes end before the operand bytes of the opcode. -/
  | truncated (op : Byte)
  deriving DecidableEq, Repr

/-- The instruction that an opcode byte and the two bytes after it stand for. The opcode alone decides which it is
(spec/30_encoding.md R80), and no operand byte is illegal (R88). -/
def decodeInstr (op lo hi : Byte) : Except DecodeError Instr :=
  match rowOf op with
  | some r => .ok (r.make lo hi)
  | none => .error (.unknownOpcode op)

/-- Decode the instruction at the head of a list of bytes and give the bytes after it. -/
def decode : List Byte → Except DecodeError (Instr × List Byte)
  | [] => .error .noBytes
  | op :: rest =>
    match decodeInstr op (rest.getD 0 0) (rest.getD 1 0) with
    | .error e => .error e
    | .ok i =>
      if rest.length < i.format.operandBytes then .error (.truncated op)
      else .ok (i, rest.drop i.format.operandBytes)

/-- Byte `k` of a number whose first byte is the least significant one. -/
def byteAt (w k : Nat) : Byte := BitVec.ofNat 8 (w / 256 ^ k)

/-- The instruction of an opcode-table word: byte 0 is the opcode, later bytes count on from it, and every bit from
`nbits` up is 0. Log 3. -/
def decodeTableWord (nbits w : Nat) : Option Instr :=
  match decodeInstr (byteAt (w % 2 ^ nbits) 0) (byteAt (w % 2 ^ nbits) 1) (byteAt (w % 2 ^ nbits) 2) with
  | .ok i => some i
  | .error _ => none

/-- The opcode byte of an instruction (spec/30_encoding.md R83; sorted by byte, R86). -/
def Instr.opcode : Instr → Byte
  | .brk => 0x00
  | .aslZp _ => 0x06
  | .aslAcc => 0x0A
  | .aslAbs _ => 0x0E
  | .bpl _ => 0x10
  | .aslZpX _ => 0x16
  | .clc => 0x18
  | .aslAbsX _ => 0x1E
  | .andIndX _ => 0x21
  | .bitZp _ => 0x24
  | .andZp _ => 0x25
  | .andImm _ => 0x29
  | .bitAbs _ => 0x2C
  | .andAbs _ => 0x2D
  | .bmi _ => 0x30
  | .andIndY _ => 0x31
  | .andZpX _ => 0x35
  | .andAbsY _ => 0x39
  | .andAbsX _ => 0x3D
  | .bvc _ => 0x50
  | .cli => 0x58
  | .adcIndX _ => 0x61
  | .adcZp _ => 0x65
  | .adcImm _ => 0x69
  | .adcAbs _ => 0x6D
  | .bvs _ => 0x70
  | .adcIndY _ => 0x71
  | .adcZpX _ => 0x75
  | .adcAbsY _ => 0x79
  | .adcAbsX _ => 0x7D
  | .staIndX _ => 0x81
  | .staZp _ => 0x85
  | .staAbs _ => 0x8D
  | .bcc _ => 0x90
  | .staIndY _ => 0x91
  | .staZpX _ => 0x95
  | .staAbsY _ => 0x99
  | .staAbsX _ => 0x9D
  | .ldaIndX _ => 0xA1
  | .ldaZp _ => 0xA5
  | .ldaImm _ => 0xA9
  | .tax => 0xAA
  | .ldaAbs _ => 0xAD
  | .bcs _ => 0xB0
  | .ldaIndY _ => 0xB1
  | .ldaZpX _ => 0xB5
  | .clv => 0xB8
  | .ldaAbsY _ => 0xB9
  | .ldaAbsX _ => 0xBD
  | .cpyImm _ => 0xC0
  | .cmpIndX _ => 0xC1
  | .cpyZp _ => 0xC4
  | .cmpZp _ => 0xC5
  | .cmpImm _ => 0xC9
  | .cpyAbs _ => 0xCC
  | .cmpAbs _ => 0xCD
  | .bne _ => 0xD0
  | .cmpIndY _ => 0xD1
  | .cmpZpX _ => 0xD5
  | .cld => 0xD8
  | .cmpAbsY _ => 0xD9
  | .cmpAbsX _ => 0xDD
  | .cpxImm _ => 0xE0
  | .cpxZp _ => 0xE4
  | .inx => 0xE8
  | .cpxAbs _ => 0xEC
  | .beq _ => 0xF0

/-- The operand bytes of an instruction in ascending address order, the low byte of an address first
(spec/30_encoding.md R80, R82). -/
def Instr.operandBytes : Instr → List Byte
  | .adcImm imm8 => [imm8]
  | .adcZp zp8 => [zp8]
  | .adcZpX zp8 => [zp8]
  | .adcAbs addr => [lowByte addr, highByte addr]
  | .adcAbsX addr => [lowByte addr, highByte addr]
  | .adcAbsY addr => [lowByte addr, highByte addr]
  | .adcIndX zp8 => [zp8]
  | .adcIndY zp8 => [zp8]
  | .andImm imm8 => [imm8]
  | .andZp zp8 => [zp8]
  | .andZpX zp8 => [zp8]
  | .andAbs addr => [lowByte addr, highByte addr]
  | .andAbsX addr => [lowByte addr, highByte addr]
  | .andAbsY addr => [lowByte addr, highByte addr]
  | .andIndX zp8 => [zp8]
  | .andIndY zp8 => [zp8]
  | .aslAcc => []
  | .aslZp zp8 => [zp8]
  | .aslZpX zp8 => [zp8]
  | .aslAbs addr => [lowByte addr, highByte addr]
  | .aslAbsX addr => [lowByte addr, highByte addr]
  | .bcc rel8 => [rel8]
  | .bcs rel8 => [rel8]
  | .beq rel8 => [rel8]
  | .bmi rel8 => [rel8]
  | .bne rel8 => [rel8]
  | .bpl rel8 => [rel8]
  | .bvc rel8 => [rel8]
  | .bvs rel8 => [rel8]
  | .bitZp zp8 => [zp8]
  | .bitAbs addr => [lowByte addr, highByte addr]
  | .clc => []
  | .cld => []
  | .cli => []
  | .clv => []
  | .cmpImm imm8 => [imm8]
  | .cmpZp zp8 => [zp8]
  | .cmpZpX zp8 => [zp8]
  | .cmpAbs addr => [lowByte addr, highByte addr]
  | .cmpAbsX addr => [lowByte addr, highByte addr]
  | .cmpAbsY addr => [lowByte addr, highByte addr]
  | .cmpIndX zp8 => [zp8]
  | .cmpIndY zp8 => [zp8]
  | .cpxImm imm8 => [imm8]
  | .cpxZp zp8 => [zp8]
  | .cpxAbs addr => [lowByte addr, highByte addr]
  | .cpyImm imm8 => [imm8]
  | .cpyZp zp8 => [zp8]
  | .cpyAbs addr => [lowByte addr, highByte addr]
  | .ldaImm imm8 => [imm8]
  | .ldaZp zp8 => [zp8]
  | .ldaZpX zp8 => [zp8]
  | .ldaAbs addr => [lowByte addr, highByte addr]
  | .ldaAbsX addr => [lowByte addr, highByte addr]
  | .ldaAbsY addr => [lowByte addr, highByte addr]
  | .ldaIndX zp8 => [zp8]
  | .ldaIndY zp8 => [zp8]
  | .staZp zp8 => [zp8]
  | .staZpX zp8 => [zp8]
  | .staAbs addr => [lowByte addr, highByte addr]
  | .staAbsX addr => [lowByte addr, highByte addr]
  | .staAbsY addr => [lowByte addr, highByte addr]
  | .staIndX zp8 => [zp8]
  | .staIndY zp8 => [zp8]
  | .tax => []
  | .inx => []
  | .brk => []

/-- The bytes of an instruction: its opcode and then its operand bytes (spec/30_encoding.md R80). -/
def encode (i : Instr) : List Byte := i.opcode :: i.operandBytes

end Sys2Proof
end

