-- ==== Sys2Proof/Machine/State.lean ====
section
/-! DEFINITION. The state of the block, the tuple `(A, X, Y, PC, P, Mem, fsm, err)` of spec/10_state.md R20, its
reset values (R31, R32), and the reasons a step or a command does not answer a next state. -/

namespace Sys2Proof.Machine

/-- The eight flags of the status byte, in ascending bit order (spec/10_state.md R25, decision D21). -/
inductive Flag where
  | carry | zero | interruptDisable | decimal | break1 | break2 | overflow | negative
  deriving DecidableEq, Repr

/-- The state of `instruction_dispatch_fsm` (spec/10_state.md R28, decision D8). -/
inductive Fsm where
  /-- Powered on or reset, and no run commanded since. -/
  | idle
  /-- A run is in progress: the next step fetches at PC. -/
  | running
  /-- The last run ended by fetching opcode 0x00. -/
  | halted
  /-- The last run ended with an error, which `err` names. -/
  | faulted
  deriving DecidableEq, Repr

/-- The two error kinds of the block (spec/60_exceptions.md R200, spec/10_state.md R29). -/
inductive RunError where
  /-- The byte `op`, fetched as an opcode at `origin`, is in no row of the decoder's table (R201). -/
  | unknownOpcode (op : Byte) (origin : Word)
  /-- The resolver was called with the sentinel mode (R202). -/
  | invalidAddressingMode
  deriving DecidableEq, Repr

/-- Memory: cells of an address and a byte, the addresses strictly rising and below 65536, and no cell holding 0x00,
which is what an unlisted address reads as (`PowerOn` zero-fills the array: spec/10_state.md R31, R34). Log 10. -/
abbrev Memory := List Host.Cell

/-- The complete state of the block (spec/10_state.md R20). -/
structure State where
  /-- A, the accumulator (R21). -/
  a   : Byte
  /-- X, the index register X (R22). -/
  x   : Byte
  /-- Y, the index register Y (R23). -/
  y   : Byte
  /-- PC, the program counter (R24). -/
  pc  : Word
  /-- P, the status byte (R25). -/
  p   : Byte
  /-- Mem, the memory array (R34). -/
  mem : Memory
  /-- The state of the dispatch state machine (R28). -/
  fsm : Fsm
  /-- The error latch; `none` is the spec's own `None` (R29). -/
  err : Option RunError
  deriving DecidableEq, Repr

/-- Why the machine stops with no next state. -/
inductive Fault where
  /-- `step` raises it when `fsm` is not Running: no step is enabled (spec/42_dispatch_fsm.md R132). Safe: the
  hardware does not move either. Log 2. -/
  | notRunning
  deriving DecidableEq, Repr

/-- Why there is no meaning, or no transition. -/
inductive Refusal where
  /-- `exec` raises it for an instruction that has no meaning yet; no arm does. Safe. -/
  | notModelled (mnemonic : String)
  /-- `command` raises it for `Load`, `Reset`, `Run` or `LoadAndRun` while a run is in progress: the command is not
  accepted (spec/70_reset_and_hazards.md R227). Safe. Log 6. -/
  | commandWhileRunning
  /-- `command` raises it for a program of more than 0x8000 bytes: the command is not accepted and nothing is written
  (spec/70_reset_and_hazards.md R221). Safe. Log 6. -/
  | programTooLong
  /-- `stepBlock` raises it for a block number that does not exist. Safe. Log 17. -/
  | noSuchBlock
  deriving DecidableEq, Repr

/-- What an instruction, a step or a command answers. -/
abbrev Result := Host.Outcome State Fault Refusal

/-- The machine right after reset: `PowerOn` and then `Reset` (spec/10_state.md R31, R32), which makes PC the zero
vector of zero-filled memory. Log 11. -/
def State.reset : State where
  a   := 0
  x   := 0
  y   := 0
  pc  := 0
  p   := Config.powerUpStatus
  mem := []
  fsm := .idle
  err := none

end Sys2Proof.Machine
end

