-- ==== Sys2Proof/Machine/Ops.lean ====
section
/-! DEFINITION. The operations every instruction is made of: memory (spec/20_memory.md), the program counter, and
the three ways `fsm` changes inside a run or at its start (spec/42_dispatch_fsm.md R130). -/

namespace Sys2Proof.Machine

/-! ### Memory -/

/-- What an address that no cell lists reads as: the zero fill of `PowerOn` (spec/10_state.md R31). -/
def emptyByte : Byte := 0

/-- The byte at a numeric address of a memory. -/
def Memory.read : Memory → Nat → Byte
  | [], _ => emptyByte
  | (k, v) :: rest, n => if k = n then v else Memory.read rest n

/-- The cell list that holds `v` at `n` in front of `rest`: none when `v` is what an unlisted address reads as. -/
def Memory.cons (n : Nat) (v : Byte) (rest : Memory) : Memory :=
  if v = emptyByte then rest else (n, v) :: rest

/-- A memory with the byte `v` at the numeric address `n`, in canonical form again. -/
def Memory.write : Memory → Nat → Byte → Memory
  | [], n, v => Memory.cons n v []
  | (k, w) :: rest, n, v =>
    if n < k then Memory.cons n v ((k, w) :: rest)
    else if n = k then Memory.cons n v rest
    else (k, w) :: Memory.write rest n v

/-- Canonical form from a lowest address on: addresses strictly rising from `lo`, below 65536, and no cell that holds
what an unlisted address reads as. -/
def Memory.wfFrom : Nat → Memory → Bool
  | _, [] => true
  | lo, (k, v) :: rest =>
    decide (lo ≤ k) && decide (k < Config.memSize) && decide (v ≠ emptyByte) && Memory.wfFrom (k + 1) rest

/-- The canonical form of a memory. -/
def Memory.wf (m : Memory) : Bool := Memory.wfFrom 0 m

/-- `MemRead(addr, 1)`: the byte at an address, with no effect (spec/20_memory.md R52). -/
def memRead (s : State) (addr : Word) : Byte := s.mem.read addr.toNat

/-- `MemWrite(addr, 1, v)`: the byte at one address becomes `v` and nothing else changes (spec/20_memory.md R52). -/
def memWrite (addr : Word) (v : Byte) (s : State) : State := { s with mem := s.mem.write addr.toNat v }

/-- `zext_16(b)`: the 16-bit value equal to a byte (spec/00_scope.md R8). -/
def zext16 (b : Byte) : Word := joinBytes 0 b

/-- `sext_16(b)`: `b` if bit 7 is clear, else `0xFF00 + b` (spec/00_scope.md R8). -/
def sext16 (b : Byte) : Word := if b.getLsbD 7 then joinBytes 0xFF b else joinBytes 0 b

/-- `Read16(addr)`: the low byte at `addr`, the high byte at the next address modulo 65536 (spec/20_memory.md R53). -/
def read16 (s : State) (addr : Word) : Word := joinBytes (memRead s (addr + 1)) (memRead s addr)

/-- `Read16ZP(p)`: the low byte at zero-page address `p`, the high byte at `p + 1` modulo 256
(spec/20_memory.md R54). -/
def read16ZP (s : State) (p : Byte) : Word := joinBytes (memRead s (zext16 (p + 1))) (memRead s (zext16 p))

/-- A memory with `bytes` written at ascending addresses from `addr` on, the first one first
(spec/70_reset_and_hazards.md R221). -/
def Memory.writeBytes : Memory → Word → List Byte → Memory
  | m, _, [] => m
  | m, addr, b :: bytes => Memory.writeBytes (m.write addr.toNat b) (addr + 1) bytes

/-! ### The program counter and the dispatch state machine -/

/-- `PC <- PC +16 n` (spec/42_dispatch_fsm.md R133). -/
def advancePc (n : Nat) (s : State) : State := { s with pc := s.pc + BitVec.ofNat 16 n }

/-- The end of a run by opcode 0x00: `fsm <- Halted` (spec/42_dispatch_fsm.md R134). -/
def halt (s : State) : State := { s with fsm := .halted }

/-- Taking an error: `err <- e`, `fsm <- Faulted`, and nothing else; nothing is saved and control goes nowhere
(spec/60_exceptions.md R206). -/
def takeError (e : RunError) (s : State) : State := { s with fsm := .faulted, err := some e }

/-- The start of a run: `err <- None`, `fsm <- Running`, and nothing else (spec/42_dispatch_fsm.md R131). It is also
all that leads out of `Faulted` besides `Reset` and `PowerOn`: there is no return from an error (R207). -/
def startRun (s : State) : State := { s with fsm := .running, err := none }

end Sys2Proof.Machine
end

