-- ==== Sys2Proof/Machine/Flags.lean ====
section
/-! DEFINITION. The status byte and the ALU (spec/10_state.md R25, spec/41_alu_helpers.md): the flag of a bit, the
helpers `update_zn`, `set_a`, `adc`, and the pure functions `and8`, `asl8`, `cmp8`, `inc8`, `pass`. -/

namespace Sys2Proof.Machine

/-! ### Flags of the status byte -/

/-- The bit of the status byte that holds a flag (spec/10_state.md R25). -/
def Flag.bit : Flag → Nat
  | .carry => 0
  | .zero => 1
  | .interruptDisable => 2
  | .decimal => 3
  | .break1 => 4
  | .break2 => 5
  | .overflow => 6
  | .negative => 7

/-- A flag of a status byte. -/
def getFlag (f : Flag) (p : Byte) : Bool := p.getLsbD f.bit

/-- A status byte with one flag replaced. -/
def putFlag (f : Flag) (b : Bool) (p : Byte) : Byte :=
  if b then p ||| BitVec.twoPow 8 f.bit else p &&& ~~~(BitVec.twoPow 8 f.bit)

/-- A flag of the machine. -/
def State.flag (s : State) (f : Flag) : Bool := getFlag f s.p

/-- Write one flag and leave the other seven. -/
def setFlag (f : Flag) (b : Bool) (s : State) : State := { s with p := putFlag f b s.p }

/-! ### The pure ALU functions (spec/41_alu_helpers.md R122, R123) -/

/-- `sum = old + m + P.C`, an integer 0 to 511 (R122). -/
def adcSum (old m : Byte) (c : Bool) : Nat := old.toNat + m.toNat + c.toNat

/-- `r = sum mod 256` (R122). -/
def adcResult (old m : Byte) (c : Bool) : Byte := BitVec.ofNat 8 (adcSum old m c)

/-- The carry out: `sum > 255` (R122). -/
def adcCarry (old m : Byte) (c : Bool) : Bool := decide (255 < adcSum old m c)

/-- The overflow: `((m ^ r) & (r ^ old) & 0x80) != 0` (R122). -/
def adcOverflow (old m : Byte) (c : Bool) : Bool :=
  decide ((m ^^^ adcResult old m c) &&& (adcResult old m c ^^^ old) &&& 0x80 ≠ 0)

/-- `and8(a, m)` (R123). -/
def and8 (a m : Byte) : Byte := a &&& m

/-- `asl8(v)`: `v << 1`, bit 0 becomes 0 (R123). -/
def asl8 (v : Byte) : Byte := v <<< 1

/-- The carry out of `asl8`: bit 7 before the shift (R123). -/
def asl8Carry (v : Byte) : Bool := v.getLsbD 7

/-- `cmp8(r, m)`: `(r - m) mod 256` (R123). -/
def cmp8 (r m : Byte) : Byte := r - m

/-- The carry out of `cmp8`: `m <= r`, unsigned (R123). -/
def cmp8Carry (r m : Byte) : Bool := decide (m.toNat ≤ r.toNat)

/-- `inc8(v)`: `(v + 1) mod 256` (R123). -/
def inc8 (v : Byte) : Byte := v + 1

/-- `pass(v)`: the value unchanged (R123). -/
def pass (v : Byte) : Byte := v

/-! ### The helpers that write state -/

/-- `update_zn(v)`: Zero iff `v = 0`, Negative is bit 7 of `v` (R120). -/
def updateZN (v : Byte) (s : State) : State := setFlag .negative (v.getLsbD 7) (setFlag .zero (decide (v = 0)) s)

/-- `set_a(v)`: the accumulator, and Zero and Negative from it (R121). -/
def setA (v : Byte) (s : State) : State := updateZN v { s with a := v }

/-- Write index register X, with Zero and Negative from it (R195, R196). -/
def setX (v : Byte) (s : State) : State := updateZN v { s with x := v }

/-- `adc(m)`: add with carry to the accumulator; the Decimal flag is not read (R122, R127). -/
def addWithCarry (m : Byte) (s : State) : State :=
  setA (adcResult s.a m (s.flag .carry))
    (setFlag .overflow (adcOverflow s.a m (s.flag .carry))
      (setFlag .carry (adcCarry s.a m (s.flag .carry)) s))

/-- The compare of a register value with an operand: Carry, Zero and Negative (spec/43_arithmetic_compare.md R151). -/
def compareWith (r m : Byte) (s : State) : State :=
  updateZN (cmp8 r m) (setFlag .carry (cmp8Carry r m) s)

/-- The flags of BIT: Zero from `A & m`, Negative and Overflow from bits 7 and 6 of `m` itself
(spec/44_logic_shift.md R163). -/
def bitFlags (m : Byte) (s : State) : State :=
  setFlag .overflow (m.getLsbD 6)
    (setFlag .negative (m.getLsbD 7) (setFlag .zero (decide (and8 s.a m = 0)) s))

/-- BIT, with the parameter `BIT_WRITES_A` (spec/44_logic_shift.md R163). -/
def bitTest (writesA : Bool) (m : Byte) (s : State) : State :=
  if writesA then { bitFlags m s with a := and8 s.a m } else bitFlags m s

/-- The shift of the accumulator: Carry is bit 7 before it (spec/44_logic_shift.md R161). -/
def shiftA (s : State) : State := setA (asl8 s.a) (setFlag .carry (asl8Carry s.a) s)

/-- The shift of the byte at `addr`, read and written at the same address (spec/44_logic_shift.md R162). -/
def shiftMem (addr : Word) (s : State) : State :=
  updateZN (asl8 (memRead s addr))
    (memWrite addr (asl8 (memRead s addr)) (setFlag .carry (asl8Carry (memRead s addr)) s))

end Sys2Proof.Machine
end

