-- ==== Sys2Proof/Machine/Operands.lean ====
section
/-! DEFINITION. The addressing-mode resolver (spec/40_addressing_modes.md) and the two shapes of a handler: one that
reads its operand, one that works on its effective address. PC addresses the first operand byte. -/

namespace Sys2Proof.Machine

/-- `oplen`: the operand bytes a handler consumes (spec/40_addressing_modes.md R111); 0 for the sentinel. -/
def operandLength : Operand → Nat
  | .immediate _ => 1
  | .zeroPage _ => 1
  | .zeroPageX _ => 1
  | .zeroPageY _ => 1
  | .absolute _ => 2
  | .absoluteX _ => 2
  | .absoluteY _ => 2
  | .indirectX _ => 1
  | .indirectY _ => 1
  | .none => 0

/-- The effective address of a decoded operand (spec/40_addressing_modes.md R101 to R109); none for the sentinel,
which has no address (R110). -/
def effectiveAddress : Operand → State → Option Word
  | .immediate _, s => some s.pc
  | .zeroPage zp8, _ => some (zext16 zp8)
  | .zeroPageX zp8, s => some (zext16 (zp8 + s.x))
  | .zeroPageY zp8, s => some (zext16 (zp8 + s.y))
  | .absolute addr, _ => some addr
  | .absoluteX addr, s => some (addr + zext16 s.x)
  | .absoluteY addr, s => some (addr + zext16 s.y)
  | .indirectX zp8, s => some (read16ZP s (zp8 + s.x))
  | .indirectY zp8, s => some (read16ZP s zp8 + zext16 s.y)
  | .none, _ => none

/-- The operand of a mode whose bytes lie at PC (spec/30_encoding.md R82). -/
def operandAt (m : Mode) (s : State) : Operand :=
  match m with
  | .immediate => .immediate (memRead s s.pc)
  | .zeroPage => .zeroPage (memRead s s.pc)
  | .zeroPageX => .zeroPageX (memRead s s.pc)
  | .zeroPageY => .zeroPageY (memRead s s.pc)
  | .absolute => .absolute (read16 s s.pc)
  | .absoluteX => .absoluteX (read16 s s.pc)
  | .absoluteY => .absoluteY (read16 s s.pc)
  | .indirectX => .indirectX (memRead s s.pc)
  | .indirectY => .indirectY (memRead s s.pc)
  | .none => .none

/-- `resolve(mode)`: the effective address of a mode in a state whose PC addresses the first operand byte, or none
where it must raise InvalidAddressingMode (spec/40_addressing_modes.md R100, R110). -/
def resolve (m : Mode) (s : State) : Option Word := effectiveAddress (operandAt m s) s

/-- The operand byte: the byte at the effective address (spec/40_addressing_modes.md R112). That of Immediate is the
operand byte of the instruction, which is read once (spec/42_dispatch_fsm.md R139). Log 8. -/
def operandValue : Operand → State → Option Byte
  | .immediate imm8, _ => some imm8
  | o, s => (effectiveAddress o s).map (memRead s)

/-- A handler that reads its operand, does its work and consumes its operand bytes (spec/42_dispatch_fsm.md R133);
an operand the resolver refuses is the error InvalidAddressingMode (spec/60_exceptions.md R202, R206). -/
def withOperand (o : Operand) (work : Byte → State → State) (s : State) : State :=
  match operandValue o s with
  | some m => advancePc (operandLength o) (work m s)
  | none => takeError .invalidAddressingMode s

/-- A handler that works on its effective address, resolved once, and consumes its operand bytes
(spec/40_addressing_modes.md R112, spec/42_dispatch_fsm.md R133). -/
def withAddress (o : Operand) (work : Word → State → State) (s : State) : State :=
  match effectiveAddress o s with
  | some addr => advancePc (operandLength o) (work addr s)
  | none => takeError .invalidAddressingMode s

end Sys2Proof.Machine
end

