-- ==== Sys2Proof/Machine/ArithCompare.lean ====
section
/-! DEFINITION. Add with carry and the compare family (spec/43_arithmetic_compare.md). -/

namespace Sys2Proof.Machine

/-- The handler of ADC, for every mode (R150). -/
def adcHandler (o : Operand) (s : State) : State := withOperand o addWithCarry s

/-- The compare handler, for every mode and an arbitrary register value `r` (R151). -/
def compareHandler (r : Byte) (o : Operand) (s : State) : State := withOperand o (compareWith r) s

/-- ADC Immediate, opcode 0x69 (R150). -/
def execAdcImm (imm8 : Byte) (s : State) : Host.Outcome State Fault Refusal :=
  .next (adcHandler (.immediate imm8) s)

/-- ADC ZeroPage, opcode 0x65 (R150). -/
def execAdcZp (zp8 : Byte) (s : State) : Host.Outcome State Fault Refusal :=
  .next (adcHandler (.zeroPage zp8) s)

/-- ADC ZeroPageX, opcode 0x75 (R150). -/
def execAdcZpX (zp8 : Byte) (s : State) : Host.Outcome State Fault Refusal :=
  .next (adcHandler (.zeroPageX zp8) s)

/-- ADC Absolute, opcode 0x6D (R150). -/
def execAdcAbs (addr : Word) (s : State) : Host.Outcome State Fault Refusal :=
  .next (adcHandler (.absolute addr) s)

/-- ADC AbsoluteX, opcode 0x7D (R150). -/
def execAdcAbsX (addr : Word) (s : State) : Host.Outcome State Fault Refusal :=
  .next (adcHandler (.absoluteX addr) s)

/-- ADC AbsoluteY, opcode 0x79 (R150). -/
def execAdcAbsY (addr : Word) (s : State) : Host.Outcome State Fault Refusal :=
  .next (adcHandler (.absoluteY addr) s)

/-- ADC IndirectX, opcode 0x61 (R150). -/
def execAdcIndX (zp8 : Byte) (s : State) : Host.Outcome State Fault Refusal :=
  .next (adcHandler (.indirectX zp8) s)

/-- ADC IndirectY, opcode 0x71 (R150). -/
def execAdcIndY (zp8 : Byte) (s : State) : Host.Outcome State Fault Refusal :=
  .next (adcHandler (.indirectY zp8) s)

/-- CMP Immediate, opcode 0xC9 (R151). -/
def execCmpImm (imm8 : Byte) (s : State) : Host.Outcome State Fault Refusal :=
  .next (compareHandler s.a (.immediate imm8) s)

/-- CMP ZeroPage, opcode 0xC5 (R151). -/
def execCmpZp (zp8 : Byte) (s : State) : Host.Outcome State Fault Refusal :=
  .next (compareHandler s.a (.zeroPage zp8) s)

/-- CMP ZeroPageX, opcode 0xD5 (R151). -/
def execCmpZpX (zp8 : Byte) (s : State) : Host.Outcome State Fault Refusal :=
  .next (compareHandler s.a (.zeroPageX zp8) s)

/-- CMP Absolute, opcode 0xCD (R151). -/
def execCmpAbs (addr : Word) (s : State) : Host.Outcome State Fault Refusal :=
  .next (compareHandler s.a (.absolute addr) s)

/-- CMP AbsoluteX, opcode 0xDD (R151). -/
def execCmpAbsX (addr : Word) (s : State) : Host.Outcome State Fault Refusal :=
  .next (compareHandler s.a (.absoluteX addr) s)

/-- CMP AbsoluteY, opcode 0xD9 (R151). -/
def execCmpAbsY (addr : Word) (s : State) : Host.Outcome State Fault Refusal :=
  .next (compareHandler s.a (.absoluteY addr) s)

/-- CMP IndirectX, opcode 0xC1 (R151). -/
def execCmpIndX (zp8 : Byte) (s : State) : Host.Outcome State Fault Refusal :=
  .next (compareHandler s.a (.indirectX zp8) s)

/-- CMP IndirectY, opcode 0xD1 (R151). -/
def execCmpIndY (zp8 : Byte) (s : State) : Host.Outcome State Fault Refusal :=
  .next (compareHandler s.a (.indirectY zp8) s)

/-- CPX Immediate, opcode 0xE0 (R152). -/
def execCpxImm (imm8 : Byte) (s : State) : Host.Outcome State Fault Refusal :=
  .next (compareHandler s.x (.immediate imm8) s)

/-- CPX ZeroPage, opcode 0xE4 (R152). -/
def execCpxZp (zp8 : Byte) (s : State) : Host.Outcome State Fault Refusal :=
  .next (compareHandler s.x (.zeroPage zp8) s)

/-- CPX Absolute, opcode 0xEC (R152). -/
def execCpxAbs (addr : Word) (s : State) : Host.Outcome State Fault Refusal :=
  .next (compareHandler s.x (.absolute addr) s)

/-- CPY Immediate, opcode 0xC0 (R153). -/
def execCpyImm (imm8 : Byte) (s : State) : Host.Outcome State Fault Refusal :=
  .next (compareHandler s.y (.immediate imm8) s)

/-- CPY ZeroPage, opcode 0xC4 (R153). -/
def execCpyZp (zp8 : Byte) (s : State) : Host.Outcome State Fault Refusal :=
  .next (compareHandler s.y (.zeroPage zp8) s)

/-- CPY Absolute, opcode 0xCC (R153). -/
def execCpyAbs (addr : Word) (s : State) : Host.Outcome State Fault Refusal :=
  .next (compareHandler s.y (.absolute addr) s)

end Sys2Proof.Machine
end

