-- ==== Sys2Proof/Machine/Branch.lean ====
section
/-! DEFINITION. The conditional branches (spec/45_branch.md). The conditions are PRESUMED by the spec (decision D20); log 20. -/

namespace Sys2Proof.Machine

/-- The common rule of the branches: the displacement byte is consumed, and a taken branch adds its sign extension
(R170). PC addresses the displacement byte. -/
def branchIf (cond : Bool) (rel8 : Byte) (s : State) : State :=
  if cond then { s with pc := s.pc + 1 + sext16 rel8 } else { s with pc := s.pc + 1 }

/-- BCC, opcode 0x90 (R171). -/
def execBcc (rel8 : Byte) (s : State) : Host.Outcome State Fault Refusal :=
  .next (branchIf (!s.flag .carry) rel8 s)

/-- BCS, opcode 0xB0 (R172). -/
def execBcs (rel8 : Byte) (s : State) : Host.Outcome State Fault Refusal :=
  .next (branchIf (s.flag .carry) rel8 s)

/-- BEQ, opcode 0xF0 (R173). -/
def execBeq (rel8 : Byte) (s : State) : Host.Outcome State Fault Refusal :=
  .next (branchIf (s.flag .zero) rel8 s)

/-- BMI, opcode 0x30 (R174). -/
def execBmi (rel8 : Byte) (s : State) : Host.Outcome State Fault Refusal :=
  .next (branchIf (s.flag .negative) rel8 s)

/-- BNE, opcode 0xD0 (R175). -/
def execBne (rel8 : Byte) (s : State) : Host.Outcome State Fault Refusal :=
  .next (branchIf (!s.flag .zero) rel8 s)

/-- BPL, opcode 0x10 (R176). -/
def execBpl (rel8 : Byte) (s : State) : Host.Outcome State Fault Refusal :=
  .next (branchIf (!s.flag .negative) rel8 s)

/-- BVC, opcode 0x50 (R177). -/
def execBvc (rel8 : Byte) (s : State) : Host.Outcome State Fault Refusal :=
  .next (branchIf (!s.flag .overflow) rel8 s)

/-- BVS, opcode 0x70 (R178). -/
def execBvs (rel8 : Byte) (s : State) : Host.Outcome State Fault Refusal :=
  .next (branchIf (s.flag .overflow) rel8 s)

end Sys2Proof.Machine
end

