-- ==== Sys2Proof/Machine/FlagClear.lean ====
section
/-! DEFINITION. The flag-clear instructions (spec/46_flag_clear.md). -/

namespace Sys2Proof.Machine

/-- Clear one flag and nothing else (R180 to R183). -/
def clearFlag (f : Flag) (s : State) : State := setFlag f false s

/-- CLC, opcode 0x18 (R180). -/
def execClc (s : State) : Host.Outcome State Fault Refusal :=
  .next (clearFlag .carry s)

/-- CLD, opcode 0xD8 (R181). -/
def execCld (s : State) : Host.Outcome State Fault Refusal :=
  .next (clearFlag .decimal s)

/-- CLI, opcode 0x58 (R182). -/
def execCli (s : State) : Host.Outcome State Fault Refusal :=
  .next (clearFlag .interruptDisable s)

/-- CLV, opcode 0xB8 (R183). -/
def execClv (s : State) : Host.Outcome State Fault Refusal :=
  .next (clearFlag .overflow s)

end Sys2Proof.Machine
end

