-- ==== Sys2Proof/Machine/Halt.lean ====
section
/-! DEFINITION. The halt opcode (spec/42_dispatch_fsm.md R134). It is not the 6502's BRK: nothing is pushed, no vector is read
(decision D22). -/

namespace Sys2Proof.Machine


/-- BRK, opcode 0x00 (R134). -/
def execBrk (s : State) : Host.Outcome State Fault Refusal :=
  .next (halt s)

end Sys2Proof.Machine
end

