-- ==== Sys2Proof/Machine/LoadStore.lean ====
section
/-! DEFINITION. Load and store accumulator (spec/47_load_store.md). -/

namespace Sys2Proof.Machine

/-- The handler of LDA, for every mode (R190). -/
def ldaHandler (o : Operand) (s : State) : State := withOperand o (fun m t => setA (pass m) t) s

/-- The handler of STA, for every mode; the old byte is not read (R191). -/
def staHandler (o : Operand) (s : State) : State := withAddress o (fun addr t => memWrite addr t.a t) s

/-- LDA Immediate, opcode 0xA9 (R190). -/
def execLdaImm (imm8 : Byte) (s : State) : Host.Outcome State Fault Refusal :=
  .next (ldaHandler (.immediate imm8) s)

/-- LDA ZeroPage, opcode 0xA5 (R190). -/
def execLdaZp (zp8 : Byte) (s : State) : Host.Outcome State Fault Refusal :=
  .next (ldaHandler (.zeroPage zp8) s)

/-- LDA ZeroPageX, opcode 0xB5 (R190). -/
def execLdaZpX (zp8 : Byte) (s : State) : Host.Outcome State Fault Refusal :=
  .next (ldaHandler (.zeroPageX zp8) s)

/-- LDA Absolute, opcode 0xAD (R190). -/
def execLdaAbs (addr : Word) (s : State) : Host.Outcome State Fault Refusal :=
  .next (ldaHandler (.absolute addr) s)

/-- LDA AbsoluteX, opcode 0xBD (R190). -/
def execLdaAbsX (addr : Word) (s : State) : Host.Outcome State Fault Refusal :=
  .next (ldaHandler (.absoluteX addr) s)

/-- LDA AbsoluteY, opcode 0xB9 (R190). -/
def execLdaAbsY (addr : Word) (s : State) : Host.Outcome State Fault Refusal :=
  .next (ldaHandler (.absoluteY addr) s)

/-- LDA IndirectX, opcode 0xA1 (R190). -/
def execLdaIndX (zp8 : Byte) (s : State) : Host.Outcome State Fault Refusal :=
  .next (ldaHandler (.indirectX zp8) s)

/-- LDA IndirectY, opcode 0xB1 (R190). -/
def execLdaIndY (zp8 : Byte) (s : State) : Host.Outcome State Fault Refusal :=
  .next (ldaHandler (.indirectY zp8) s)

/-- STA ZeroPage, opcode 0x85 (R191). -/
def execStaZp (zp8 : Byte) (s : State) : Host.Outcome State Fault Refusal :=
  .next (staHandler (.zeroPage zp8) s)

/-- STA ZeroPageX, opcode 0x95 (R191). -/
def execStaZpX (zp8 : Byte) (s : State) : Host.Outcome State Fault Refusal :=
  .next (staHandler (.zeroPageX zp8) s)

/-- STA Absolute, opcode 0x8D (R191). -/
def execStaAbs (addr : Word) (s : State) : Host.Outcome State Fault Refusal :=
  .next (staHandler (.absolute addr) s)

/-- STA AbsoluteX, opcode 0x9D (R191). -/
def execStaAbsX (addr : Word) (s : State) : Host.Outcome State Fault Refusal :=
  .next (staHandler (.absoluteX addr) s)

/-- STA AbsoluteY, opcode 0x99 (R191). -/
def execStaAbsY (addr : Word) (s : State) : Host.Outcome State Fault Refusal :=
  .next (staHandler (.absoluteY addr) s)

/-- STA IndirectX, opcode 0x81 (R191). -/
def execStaIndX (zp8 : Byte) (s : State) : Host.Outcome State Fault Refusal :=
  .next (staHandler (.indirectX zp8) s)

/-- STA IndirectY, opcode 0x91 (R191). -/
def execStaIndY (zp8 : Byte) (s : State) : Host.Outcome State Fault Refusal :=
  .next (staHandler (.indirectY zp8) s)

end Sys2Proof.Machine
end

