-- ==== Sys2Proof/Machine/LogicShift.lean ====
section
/-! DEFINITION. Logical AND, arithmetic shift left, bit test (spec/44_logic_shift.md). -/

namespace Sys2Proof.Machine

/-- The handler of AND, for every mode (R160). -/
def andHandler (o : Operand) (s : State) : State := withOperand o (fun m t => setA (and8 t.a m) t) s

/-- The handler of the memory form of ASL, for every mode (R162). -/
def aslHandler (o : Operand) (s : State) : State := withAddress o shiftMem s

/-- The handler of BIT, for every mode, with the parameter `BIT_WRITES_A` (R163). -/
def bitHandler (writesA : Bool) (o : Operand) (s : State) : State := withOperand o (bitTest writesA) s

/-- AND Immediate, opcode 0x29 (R160). -/
def execAndImm (imm8 : Byte) (s : State) : Host.Outcome State Fault Refusal :=
  .next (andHandler (.immediate imm8) s)

/-- AND ZeroPage, opcode 0x25 (R160). -/
def execAndZp (zp8 : Byte) (s : State) : Host.Outcome State Fault Refusal :=
  .next (andHandler (.zeroPage zp8) s)

/-- AND ZeroPageX, opcode 0x35 (R160). -/
def execAndZpX (zp8 : Byte) (s : State) : Host.Outcome State Fault Refusal :=
  .next (andHandler (.zeroPageX zp8) s)

/-- AND Absolute, opcode 0x2D (R160). -/
def execAndAbs (addr : Word) (s : State) : Host.Outcome State Fault Refusal :=
  .next (andHandler (.absolute addr) s)

/-- AND AbsoluteX, opcode 0x3D (R160). -/
def execAndAbsX (addr : Word) (s : State) : Host.Outcome State Fault Refusal :=
  .next (andHandler (.absoluteX addr) s)

/-- AND AbsoluteY, opcode 0x39 (R160). -/
def execAndAbsY (addr : Word) (s : State) : Host.Outcome State Fault Refusal :=
  .next (andHandler (.absoluteY addr) s)

/-- AND IndirectX, opcode 0x21 (R160). -/
def execAndIndX (zp8 : Byte) (s : State) : Host.Outcome State Fault Refusal :=
  .next (andHandler (.indirectX zp8) s)

/-- AND IndirectY, opcode 0x31 (R160). -/
def execAndIndY (zp8 : Byte) (s : State) : Host.Outcome State Fault Refusal :=
  .next (andHandler (.indirectY zp8) s)

/-- ASL accumulator, opcode 0x0A (R161). -/
def execAslAcc (s : State) : Host.Outcome State Fault Refusal :=
  .next (shiftA s)

/-- ASL ZeroPage, opcode 0x06 (R162). -/
def execAslZp (zp8 : Byte) (s : State) : Host.Outcome State Fault Refusal :=
  .next (aslHandler (.zeroPage zp8) s)

/-- ASL ZeroPageX, opcode 0x16 (R162). -/
def execAslZpX (zp8 : Byte) (s : State) : Host.Outcome State Fault Refusal :=
  .next (aslHandler (.zeroPageX zp8) s)

/-- ASL Absolute, opcode 0x0E (R162). -/
def execAslAbs (addr : Word) (s : State) : Host.Outcome State Fault Refusal :=
  .next (aslHandler (.absolute addr) s)

/-- ASL AbsoluteX, opcode 0x1E (R162). -/
def execAslAbsX (addr : Word) (s : State) : Host.Outcome State Fault Refusal :=
  .next (aslHandler (.absoluteX addr) s)

/-- BIT ZeroPage, opcode 0x24 (R163). -/
def execBitZp (zp8 : Byte) (s : State) : Host.Outcome State Fault Refusal :=
  .next (bitHandler Config.bitWritesA (.zeroPage zp8) s)

/-- BIT Absolute, opcode 0x2C (R163). -/
def execBitAbs (addr : Word) (s : State) : Host.Outcome State Fault Refusal :=
  .next (bitHandler Config.bitWritesA (.absolute addr) s)

end Sys2Proof.Machine
end

