-- ==== Sys2Proof/Machine/TransferIncrement.lean ====
section
/-! DEFINITION. Register transfer and increment (spec/48_transfer_increment.md). -/

namespace Sys2Proof.Machine


/-- TAX, opcode 0xAA (R195). -/
def execTax (s : State) : Host.Outcome State Fault Refusal :=
  .next (setX (pass s.a) s)

/-- INX, opcode 0xE8 (R196). -/
def execInx (s : State) : Host.Outcome State Fault Refusal :=
  .next (setX (inc8 s.x) s)

end Sys2Proof.Machine
end

