-- ==== Sys2Proof/Machine/Dispatch.lean ====
section
/-! DEFINITION. The handler of each instruction (spec/42_dispatch_fsm.md R132, R140): one arm per constructor. The
state is that of the spec's pseudocode: PC already addresses the first operand byte (spec/00_scope.md R8). -/

namespace Sys2Proof.Machine

def exec (i : Instr) (s : State) : Host.Outcome State Fault Refusal :=
  match i with
  | .adcImm imm8 => Sys2Proof.Machine.execAdcImm imm8 s
  | .adcZp zp8 => Sys2Proof.Machine.execAdcZp zp8 s
  | .adcZpX zp8 => Sys2Proof.Machine.execAdcZpX zp8 s
  | .adcAbs addr => Sys2Proof.Machine.execAdcAbs addr s
  | .adcAbsX addr => Sys2Proof.Machine.execAdcAbsX addr s
  | .adcAbsY addr => Sys2Proof.Machine.execAdcAbsY addr s
  | .adcIndX zp8 => Sys2Proof.Machine.execAdcIndX zp8 s
  | .adcIndY zp8 => Sys2Proof.Machine.execAdcIndY zp8 s
  | .andImm imm8 => Sys2Proof.Machine.execAndImm imm8 s
  | .andZp zp8 => Sys2Proof.Machine.execAndZp zp8 s
  | .andZpX zp8 => Sys2Proof.Machine.execAndZpX zp8 s
  | .andAbs addr => Sys2Proof.Machine.execAndAbs addr s
  | .andAbsX addr => Sys2Proof.Machine.execAndAbsX addr s
  | .andAbsY addr => Sys2Proof.Machine.execAndAbsY addr s
  | .andIndX zp8 => Sys2Proof.Machine.execAndIndX zp8 s
  | .andIndY zp8 => Sys2Proof.Machine.execAndIndY zp8 s
  | .aslAcc => Sys2Proof.Machine.execAslAcc s
  | .aslZp zp8 => Sys2Proof.Machine.execAslZp zp8 s
  | .aslZpX zp8 => Sys2Proof.Machine.execAslZpX zp8 s
  | .aslAbs addr => Sys2Proof.Machine.execAslAbs addr s
  | .aslAbsX addr => Sys2Proof.Machine.execAslAbsX addr s
  | .bcc rel8 => Sys2Proof.Machine.execBcc rel8 s
  | .bcs rel8 => Sys2Proof.Machine.execBcs rel8 s
  | .beq rel8 => Sys2Proof.Machine.execBeq rel8 s
  | .bmi rel8 => Sys2Proof.Machine.execBmi rel8 s
  | .bne rel8 => Sys2Proof.Machine.execBne rel8 s
  | .bpl rel8 => Sys2Proof.Machine.execBpl rel8 s
  | .bvc rel8 => Sys2Proof.Machine.execBvc rel8 s
  | .bvs rel8 => Sys2Proof.Machine.execBvs rel8 s
  | .bitZp zp8 => Sys2Proof.Machine.execBitZp zp8 s
  | .bitAbs addr => Sys2Proof.Machine.execBitAbs addr s
  | .clc => Sys2Proof.Machine.execClc s
  | .cld => Sys2Proof.Machine.execCld s
  | .cli => Sys2Proof.Machine.execCli s
  | .clv => Sys2Proof.Machine.execClv s
  | .cmpImm imm8 => Sys2Proof.Machine.execCmpImm imm8 s
  | .cmpZp zp8 => Sys2Proof.Machine.execCmpZp zp8 s
  | .cmpZpX zp8 => Sys2Proof.Machine.execCmpZpX zp8 s
  | .cmpAbs addr => Sys2Proof.Machine.execCmpAbs addr s
  | .cmpAbsX addr => Sys2Proof.Machine.execCmpAbsX addr s
  | .cmpAbsY addr => Sys2Proof.Machine.execCmpAbsY addr s
  | .cmpIndX zp8 => Sys2Proof.Machine.execCmpIndX zp8 s
  | .cmpIndY zp8 => Sys2Proof.Machine.execCmpIndY zp8 s
  | .cpxImm imm8 => Sys2Proof.Machine.execCpxImm imm8 s
  | .cpxZp zp8 => Sys2Proof.Machine.execCpxZp zp8 s
  | .cpxAbs addr => Sys2Proof.Machine.execCpxAbs addr s
  | .cpyImm imm8 => Sys2Proof.Machine.execCpyImm imm8 s
  | .cpyZp zp8 => Sys2Proof.Machine.execCpyZp zp8 s
  | .cpyAbs addr => Sys2Proof.Machine.execCpyAbs addr s
  | .ldaImm imm8 => Sys2Proof.Machine.execLdaImm imm8 s
  | .ldaZp zp8 => Sys2Proof.Machine.execLdaZp zp8 s
  | .ldaZpX zp8 => Sys2Proof.Machine.execLdaZpX zp8 s
  | .ldaAbs addr => Sys2Proof.Machine.execLdaAbs addr s
  | .ldaAbsX addr => Sys2Proof.Machine.execLdaAbsX addr s
  | .ldaAbsY addr => Sys2Proof.Machine.execLdaAbsY addr s
  | .ldaIndX zp8 => Sys2Proof.Machine.execLdaIndX zp8 s
  | .ldaIndY zp8 => Sys2Proof.Machine.execLdaIndY zp8 s
  | .staZp zp8 => Sys2Proof.Machine.execStaZp zp8 s
  | .staZpX zp8 => Sys2Proof.Machine.execStaZpX zp8 s
  | .staAbs addr => Sys2Proof.Machine.execStaAbs addr s
  | .staAbsX addr => Sys2Proof.Machine.execStaAbsX addr s
  | .staAbsY addr => Sys2Proof.Machine.execStaAbsY addr s
  | .staIndX zp8 => Sys2Proof.Machine.execStaIndX zp8 s
  | .staIndY zp8 => Sys2Proof.Machine.execStaIndY zp8 s
  | .tax => Sys2Proof.Machine.execTax s
  | .inx => Sys2Proof.Machine.execInx s
  | .brk => Sys2Proof.Machine.execBrk s

end Sys2Proof.Machine
end

