-- ==== Sys2Proof/Machine/Fetch.lean ====
section
/-! DEFINITION. The fetch of an instruction and the unknown-opcode stop (spec/42_dispatch_fsm.md R132, R135). -/

namespace Sys2Proof.Machine

/-- The instruction at PC: the opcode byte, and the two bytes after it, which complete it where its format has
operand bytes. Reading a byte that the instruction does not have changes nothing (spec/20_memory.md R56). Log 8. -/
def fetchInstr (s : State) : Except DecodeError Instr :=
  decodeInstr (memRead s s.pc) (memRead s (s.pc + 1)) (memRead s (s.pc + 2))

/-- The state a handler runs in: PC advanced past the opcode byte (R132). -/
def afterOpcode (s : State) : State := { s with pc := s.pc + 1 }

/-- The stop on an unrecognised opcode byte at PC: `err <- UnknownOpcode(op, at)`, `fsm <- Faulted`, and PC past the
byte (R135, decision D10). Log 14. -/
def unknownOpcodeStop (s : State) : State :=
  takeError (.unknownOpcode (memRead s s.pc) s.pc) (afterOpcode s)

/-- One step while Running: fetch, advance PC, dispatch (R132). -/
def runningStep (s : State) : Host.Outcome State Fault Refusal :=
  match fetchInstr s with
  | .ok i => exec i (afterOpcode s)
  | .error _ => .next (unknownOpcodeStop s)

/-- One step: enabled exactly when `fsm` is Running (R132). Log 2. -/
def stepOf (s : State) : Host.Outcome State Fault Refusal :=
  match s.fsm with
  | .running => runningStep s
  | .idle => .fault .notRunning
  | .halted => .fault .notRunning
  | .faulted => .fault .notRunning

/-- The state with an opcode-table word's three bytes at PC and a run started there. Log 3. -/
def placeWord (s : State) (nbits w : Nat) : State :=
  startRun { s with
    mem := s.mem.writeBytes s.pc
      [byteAt (w % 2 ^ nbits) 0, byteAt (w % 2 ^ nbits) 1, byteAt (w % 2 ^ nbits) 2] }

end Sys2Proof.Machine
end

