-- ==== Sys2Proof/Machine/Step.lean ====
section
/-! DEFINITION. One step of the machine (spec/42_dispatch_fsm.md R132) and the placing of one instruction where the
next step fetches. -/

namespace Sys2Proof.Machine

/-- One step: one whole instruction, one atomic transition (R132, spec/00_scope.md R11). -/
def step (s : State) : Host.Outcome State Fault Refusal := stepOf s

/-- The state with an instruction stored at PC and a run started, so that the next step runs exactly it: it stands
for the loading of a program from outside and for `Run` (spec/42_dispatch_fsm.md R131). Log 3. -/
def State.withFetchWord (s : State) (nbits w : Nat) : State := placeWord s nbits w

end Sys2Proof.Machine
end

