-- ==== Sys2Proof/Machine/Assembly.lean ====
section
/-! DEFINITION. The conventional assembler text of an instruction (spec/30_encoding.md R90, informative: "It has no
normative force"). A branch is written with its target address, as in spec/95_test_vectors.md. Log 18. -/

namespace Sys2Proof.Machine

/-- A hexadecimal digit. -/
def hexDigit (n : Nat) : Char := "0123456789ABCDEF".toList.getD n '?'

/-- A byte as two hexadecimal digits. -/
def hexByte (b : Byte) : List Char := [hexDigit (b.toNat / 16), hexDigit (b.toNat % 16)]

/-- A 16-bit value as four hexadecimal digits. -/
def hexWord (w : Word) : List Char := hexByte (highByte w) ++ hexByte (lowByte w)

/-- The letters of a mnemonic. -/
def mnemonicText : Mnemonic → List Char
  | .adc => "ADC".toList | .and => "AND".toList | .asl => "ASL".toList | .bcc => "BCC".toList
  | .bcs => "BCS".toList | .beq => "BEQ".toList | .bmi => "BMI".toList | .bne => "BNE".toList
  | .bpl => "BPL".toList | .bvc => "BVC".toList | .bvs => "BVS".toList | .bit => "BIT".toList
  | .clc => "CLC".toList | .cld => "CLD".toList | .cli => "CLI".toList | .clv => "CLV".toList
  | .cmp => "CMP".toList | .cpx => "CPX".toList | .cpy => "CPY".toList | .lda => "LDA".toList
  | .sta => "STA".toList | .tax => "TAX".toList | .inx => "INX".toList | .brk => "BRK".toList

/-- The text of a memory operand, with the space before it; nothing for the sentinel. -/
def operandText : Operand → List Char
  | .immediate imm8 => " #$".toList ++ hexByte imm8
  | .zeroPage zp8 => " $".toList ++ hexByte zp8
  | .zeroPageX zp8 => " $".toList ++ hexByte zp8 ++ ",X".toList
  | .zeroPageY zp8 => " $".toList ++ hexByte zp8 ++ ",Y".toList
  | .absolute addr => " $".toList ++ hexWord addr
  | .absoluteX addr => " $".toList ++ hexWord addr ++ ",X".toList
  | .absoluteY addr => " $".toList ++ hexWord addr ++ ",Y".toList
  | .indirectX zp8 => " ($".toList ++ hexByte zp8 ++ ",X)".toList
  | .indirectY zp8 => " ($".toList ++ hexByte zp8 ++ "),Y".toList
  | .none => []

/-- The address a branch at `origin` goes to when taken (spec/45_branch.md R170). -/
def branchTarget (origin : Word) (rel8 : Byte) : Word := origin + 2 + sext16 rel8

/-- The assembler text of an instruction whose opcode byte lies at `origin`. -/
def assemblyText (origin : Word) (i : Instr) : List Char :=
  mnemonicText i.mnemonic ++
    match i with
    | .aslAcc => " A".toList
    | .bcc rel8 | .bcs rel8 | .beq rel8 | .bmi rel8 | .bne rel8 | .bpl rel8 | .bvc rel8 | .bvs rel8 =>
      " $".toList ++ hexWord (branchTarget origin rel8)
    | i => operandText i.operand

end Sys2Proof.Machine
end

