-- ==== Sys2Proof/Machine/Blocks.lean ====
section
/-! DEFINITION. Several blocks: a product of independent machines, each with its own state (spec/20_memory.md R67).
Log 17. -/

namespace Sys2Proof.Machine

/-- A step of block number `k` of several: that block steps and no other state is touched. -/
def stepBlock (k : Nat) (blocks : List State) : Host.Outcome (List State) Fault Refusal :=
  match blocks[k]? with
  | none => .refused .noSuchBlock
  | some s =>
    match step s with
    | .next t => .next (blocks.set k t)
    | .fault r => .fault r
    | .refused r => .refused r

end Sys2Proof.Machine
end

