-- ==== Sys2Proof/Machine/Command.lean ====
section
/-! DEFINITION. The host's commands (spec/00_scope.md R10, spec/70_reset_and_hazards.md R220 to R227). A command acts
between steps; an unaccepted one has no transition (R227). Log 4. -/

namespace Sys2Proof.Machine

/-- The five commands of the block's interface (spec/00_scope.md R10). -/
inductive Command where
  | powerOn
  | load (bytes : List Byte)
  | reset
  | run
  | loadAndRun (bytes : List Byte)
  deriving DecidableEq, Repr

/-- The state after `PowerOn`, whatever it was before (R220, spec/10_state.md R31). -/
def powerOnState : State where
  a   := 0
  x   := 0
  y   := 0
  pc  := 0
  p   := Config.powerUpStatus
  mem := []
  fsm := .idle
  err := none

/-- What `Load` does to memory: the program bytes first, the two vector bytes after them (R221, decision D18). -/
def loadMemory (bytes : List Byte) (m : Memory) : Memory :=
  (m.writeBytes Config.loadOrigin bytes).writeBytes Config.resetVector
    [lowByte Config.loadOrigin, highByte Config.loadOrigin]

/-- `Load(bytes)`: memory and nothing else (R221). -/
def loadProgram (bytes : List Byte) (s : State) : State := { s with mem := loadMemory bytes s.mem }

/-- `Reset`: A, X, P, PC from the reset vector, `fsm` and `err`; neither Y nor memory (R222, spec/10_state.md R32).
Log 12. -/
def resetBlock (s : State) : State :=
  { s with a := 0, x := 0, p := Config.powerUpStatus, pc := read16 s Config.resetVector, fsm := .idle, err := none }

/-- Whether the block accepts a command: `PowerOn` always, the others when no run is in progress (R227), and a program
only up to 0x8000 bytes (R221, R224). Log 6. -/
def commandRefusal (c : Command) (s : State) : Option Refusal :=
  match c with
  | .powerOn => none
  | .reset | .run => if s.fsm = .running then some .commandWhileRunning else none
  | .load bytes | .loadAndRun bytes =>
    if s.fsm = .running then some .commandWhileRunning
    else if programWellFormed bytes then none
    else some .programTooLong

/-- The effect of an accepted command. `Run` and `LoadAndRun` start the run, which `step` then takes on (R223, R224,
spec/42_dispatch_fsm.md R131). Log 5. -/
def commandEffect (c : Command) (s : State) : State :=
  match c with
  | .powerOn => powerOnState
  | .load bytes => loadProgram bytes s
  | .reset => resetBlock s
  | .run => startRun s
  | .loadAndRun bytes => startRun (resetBlock (loadProgram bytes s))

/-- A command given to the block. -/
def command (c : Command) (s : State) : Host.Outcome State Fault Refusal :=
  match commandRefusal c s with
  | some r => .refused r
  | none => .next (commandEffect c s)

/-- What the host can read: the whole state whenever no run is in progress (spec/00_scope.md R10, decision D7).
Log 16. -/
def observe (s : State) : Option State := if s.fsm = .running then none else some s

end Sys2Proof.Machine
end

