-- ==== Sys2Proof/Machine/Run.lean ====
section
/-! DEFINITION. A run under a step budget and its outcome (spec/42_dispatch_fsm.md R136 to R138). -/

namespace Sys2Proof.Machine

/-- How a run under a budget ends. -/
inductive RunOutcome where
  /-- The run returned success: opcode 0x00 was fetched (R134, R138). -/
  | halted (s : State)
  /-- The run ended with the error `err` names (R135, R138). -/
  | faulted (s : State)
  /-- The budget is used up and the run goes on: neither of the two (R137). -/
  | exhausted (s : State)
  /-- No run was in progress: there is nothing to run. -/
  | notStarted (s : State)
  /-- A running block whose step has no next state; the spec has none (spec/70_reset_and_hazards.md R232). -/
  | stuck (s : State)
  deriving DecidableEq, Repr

/-- The outcome that a state shows once no further step is taken. -/
def outcomeOf (s : State) : RunOutcome :=
  match s.fsm with
  | .idle => .notStarted s
  | .running => .exhausted s
  | .halted => .halted s
  | .faulted => .faulted s

/-- At most `budget` steps, up to the first state that is not Running (R136, R138). The budget is the caller's
(R137). Log 5. -/
def runFor : Nat → State → RunOutcome
  | 0, s => outcomeOf s
  | budget + 1, s =>
    match s.fsm with
    | .running =>
      match step s with
      | .next t => runFor budget t
      | .fault _ => .stuck s
      | .refused _ => .stuck s
    | .idle => outcomeOf s
    | .halted => outcomeOf s
    | .faulted => outcomeOf s

end Sys2Proof.Machine
end

