-- ==== Sys2Proof/Machine/Trace.lean ====
section
/-! DEFINITION. The memory accesses of one step, in order (spec/42_dispatch_fsm.md R139). They are a function of the
state, not a part of it: no program and no host can observe them. Log 15. -/

namespace Sys2Proof.Machine

/-- One byte access (spec/20_memory.md R52, R55). -/
inductive Access where
  | read (addr : Word)
  | write (addr : Word) (v : Byte)
  deriving DecidableEq, Repr

/-- The reads of operand bytes at PC: rows 2 and 3 of R139. -/
def operandReads (f : Format) (s : State) : List Access :=
  match f with
  | .imp => []
  | .imm | .zpg | .rel => [.read s.pc]
  | .abs => [.read s.pc, .read (s.pc + 1)]

/-- The reads of an indirect mode's pointer bytes, low then high: row 4 of R139. -/
def pointerReads (o : Operand) (s : State) : List Access :=
  match o with
  | .indirectX zp8 => [.read (zext16 (zp8 + s.x)), .read (zext16 (zp8 + s.x + 1))]
  | .indirectY zp8 => [.read (zext16 zp8), .read (zext16 (zp8 + 1))]
  | _ => []

/-- The read of the operand and the write of the result: rows 5 and 6 of R139. The operand read of Immediate is the
one of row 2 and is made once. -/
def dataAccesses (m : Mnemonic) (o : Operand) (s : State) : List Access :=
  match o, effectiveAddress o s with
  | _, none => []
  | .immediate _, some _ => []
  | _, some addr =>
    match m with
    | .sta => [.write addr s.a]
    | .asl => [.read addr, .write addr (asl8 (memRead s addr))]
    | _ => [.read addr]

/-- The accesses of an instruction after its opcode byte. -/
def instrAccesses (i : Instr) (s : State) : List Access :=
  operandReads i.format s ++ pointerReads i.operand s ++ dataAccesses i.mnemonic i.operand s

/-- The accesses of a step: the opcode and then those of the instruction; an unrecognised opcode consumes no operand
byte (R135); no step is taken when the block is not Running. -/
def stepAccesses (s : State) : List Access :=
  match s.fsm, fetchInstr s with
  | .running, .ok i => .read s.pc :: instrAccesses i (afterOpcode s)
  | .running, .error _ => [.read s.pc]
  | _, _ => []

/-- What an access does to a memory. -/
def Access.apply (m : Memory) : Access → Memory
  | .read _ => m
  | .write addr v => m.write addr.toNat v

/-- Whether an access is a write. -/
def Access.isWrite : Access → Bool
  | .read _ => false
  | .write _ _ => true

end Sys2Proof.Machine
end

