-- ==== Sys2Proof/Safety.lean ====
section
/-! DEFINITION. The terms that claims are stated in: the invariant of the block, the states a host can bring it to,
and the words for what an instruction leaves alone. -/

namespace Sys2Proof.Machine

/-- The invariant of the block: memory is in canonical form, and `err` holds an error exactly when `fsm` is Faulted
(spec/10_state.md R29). -/
def State.Inv (s : State) : Prop := s.mem.wf = true ∧ (s.err ≠ none ↔ s.fsm = .faulted)

/-- The states the block can be in: `PowerOn`, and from there accepted commands and steps (spec/00_scope.md R10). -/
inductive Reachable : State → Prop where
  | powerOn : Reachable powerOnState
  | command {s t : State} (c : Command) : Reachable s → command c s = .next t → Reachable t
  | step {s t : State} : Reachable s → step s = .next t → Reachable t

/-- The flags outside a list are unchanged. -/
def FlagsKept (but : List Flag) (s t : State) : Prop := ∀ f : Flag, f ∉ but → t.flag f = s.flag f

/-- Every byte of memory outside a list of addresses reads as before. -/
def MemoryKept (but : List Word) (s t : State) : Prop := ∀ b : Word, b ∉ but → memRead t b = memRead s b

/-- The registers A, X and Y are unchanged. -/
def RegistersKept (s t : State) : Prop := t.a = s.a ∧ t.x = s.x ∧ t.y = s.y

/-- The state of the dispatch state machine is unchanged (spec/42_dispatch_fsm.md R141). -/
def DispatchKept (s t : State) : Prop := t.fsm = s.fsm ∧ t.err = s.err

/-- PC has advanced past the operand bytes of an instruction (spec/42_dispatch_fsm.md R133). -/
def PcAdvanced (i : Instr) (s t : State) : Prop := t.pc = s.pc + BitVec.ofNat 16 i.format.operandBytes

/-- The branches (spec/45_branch.md). -/
def isBranch (m : Mnemonic) : Bool :=
  match m with
  | .bcc | .bcs | .beq | .bmi | .bne | .bpl | .bvc | .bvs => true
  | .adc | .and | .asl | .bit | .clc | .cld | .cli | .clv | .cmp | .cpx | .cpy | .lda | .sta | .tax | .inx | .brk => false

/-- Whether an instruction is a branch that is taken in a state (spec/45_branch.md R171 to R178). -/
def branchTaken (m : Mnemonic) (s : State) : Bool :=
  match m with
  | .bcc => !s.flag .carry
  | .bcs => s.flag .carry
  | .bne => !s.flag .zero
  | .beq => s.flag .zero
  | .bpl => !s.flag .negative
  | .bmi => s.flag .negative
  | .bvc => !s.flag .overflow
  | .bvs => s.flag .overflow
  | .adc | .and | .asl | .bit | .clc | .cld | .cli | .clv | .cmp | .cpx | .cpy | .lda | .sta | .tax | .inx | .brk => false

/-- A byte as a two's-complement number, -128 to 127 (spec/41_alu_helpers.md R126). -/
def signedByte (b : Byte) : Int := if b.toNat < 128 then (b.toNat : Int) else (b.toNat : Int) - 256

end Sys2Proof.Machine
end

