-- ==== Sys2Proof/Certificates/Slice0/Obligations.lean ====
section
/-! DEFINITION. The statements about this model, one `Obligations.<Name>` each; OBLIGATIONS.json lists them. -/

open Sys2Proof Sys2Proof.Machine

/-! ### Encoding (spec/30_encoding.md) -/

/-- A word of each family, written from the opcode map of R83, decodes to the instruction it stands for. -/
def Obligations.SpecWordsDecode : Prop :=
  decode [0xA9, 0xC0] = .ok (.ldaImm 0xC0, []) ∧ decode [0xAA] = .ok (.tax, []) ∧ decode [0xE8] = .ok (.inx, []) ∧
  decode [0x00] = .ok (.brk, []) ∧ decode [0xFF] = .error (.unknownOpcode 0xFF) ∧
  decode [0x71, 0x20] = .ok (.adcIndY 0x20, []) ∧ decode [0xDD, 0x34, 0x12] = .ok (.cmpAbsX 0x1234, []) ∧
  decode [0x1E, 0x00, 0x02] = .ok (.aslAbsX 0x0200, []) ∧ decode [0x2C, 0x34, 0x12] = .ok (.bitAbs 0x1234, []) ∧
  decode [0xD0, 0xF9] = .ok (.bne 0xF9, []) ∧ decode [0xB8] = .ok (.clv, []) ∧
  decode [0x99, 0x00, 0x30] = .ok (.staAbsY 0x3000, [])

/-- R83: the decoder recognises exactly the 67 opcode bytes of the map, each as the instruction of its row with the
operand bytes `lo` and `hi` after it, and no other byte, whatever follows it. -/
def Obligations.OpcodeMapIsExact : Prop :=
  ∀ (lo hi : Byte) (rows : List (Byte × Instr)), rows =
        [(0x69, Instr.adcImm lo), (0x65, .adcZp lo), (0x75, .adcZpX lo), (0x6D, .adcAbs (joinBytes hi lo)),
         (0x7D, .adcAbsX (joinBytes hi lo)), (0x79, .adcAbsY (joinBytes hi lo)), (0x61, .adcIndX lo),
         (0x71, .adcIndY lo)] ++
        [(0x29, Instr.andImm lo), (0x25, .andZp lo), (0x35, .andZpX lo), (0x2D, .andAbs (joinBytes hi lo)),
         (0x3D, .andAbsX (joinBytes hi lo)), (0x39, .andAbsY (joinBytes hi lo)), (0x21, .andIndX lo),
         (0x31, .andIndY lo)] ++
        [(0x0A, Instr.aslAcc), (0x06, .aslZp lo), (0x16, .aslZpX lo), (0x0E, .aslAbs (joinBytes hi lo)),
         (0x1E, .aslAbsX (joinBytes hi lo)), (0x90, .bcc lo), (0xB0, .bcs lo), (0xF0, .beq lo),
         (0x30, .bmi lo)] ++
        [(0xD0, Instr.bne lo), (0x10, .bpl lo), (0x50, .bvc lo), (0x70, .bvs lo), (0x24, .bitZp lo),
         (0x2C, .bitAbs (joinBytes hi lo)), (0x18, .clc), (0xD8, .cld), (0x58, .cli)] ++
        [(0xB8, Instr.clv), (0xC9, .cmpImm lo), (0xC5, .cmpZp lo), (0xD5, .cmpZpX lo),
         (0xCD, .cmpAbs (joinBytes hi lo)), (0xDD, .cmpAbsX (joinBytes hi lo)),
         (0xD9, .cmpAbsY (joinBytes hi lo)), (0xC1, .cmpIndX lo), (0xD1, .cmpIndY lo)] ++
        [(0xE0, Instr.cpxImm lo), (0xE4, .cpxZp lo), (0xEC, .cpxAbs (joinBytes hi lo)), (0xC0, .cpyImm lo),
         (0xC4, .cpyZp lo), (0xCC, .cpyAbs (joinBytes hi lo))] ++
        [(0xA9, Instr.ldaImm lo), (0xA5, .ldaZp lo), (0xB5, .ldaZpX lo), (0xAD, .ldaAbs (joinBytes hi lo)),
         (0xBD, .ldaAbsX (joinBytes hi lo)), (0xB9, .ldaAbsY (joinBytes hi lo)), (0xA1, .ldaIndX lo),
         (0xB1, .ldaIndY lo)] ++
        [(0x85, Instr.staZp lo), (0x95, .staZpX lo), (0x8D, .staAbs (joinBytes hi lo)),
         (0x9D, .staAbsX (joinBytes hi lo)), (0x99, .staAbsY (joinBytes hi lo)), (0x81, .staIndX lo),
         (0x91, .staIndY lo), (0xAA, .tax), (0xE8, .inx)] ++
        [(0x00, Instr.brk)] →
      (∀ row ∈ rows, decodeInstr row.1 lo hi = .ok row.2) ∧
      ∀ op : Byte, op ∉ rows.map Prod.fst → decodeInstr op lo hi = .error (.unknownOpcode op)

/-- Decoding what the encoder wrote gives every instruction back, whatever its operand and whatever follows it. -/
def Obligations.DecodeOfEncodeIsIdentity : Prop :=
  ∀ (i : Instr) (rest : List Byte), i.wellFormed = true → decode (encode i ++ rest) = .ok (i, rest)

/-- Bytes that decode are the encoding of what they decode to: no two encodings of one instruction. -/
def Obligations.EncodeOfDecodeIsIdentity : Prop :=
  ∀ (bytes rest : List Byte) (i : Instr), decode bytes = .ok (i, rest) → bytes = encode i ++ rest

/-- The opcode byte alone determines the mnemonic, the mode and the length, and the decoded instruction is one the
opcode map has. -/
def Obligations.OpcodeAloneDecidesTheInstruction : Prop :=
  ∀ (op lo hi lo' hi' : Byte) (i : Instr), decodeInstr op lo hi = .ok i →
    decodeOpcode op = some (i.mnemonic, i.mode) ∧ i.wellFormed = true ∧
    ∃ j, decodeInstr op lo' hi' = .ok j ∧ j.mnemonic = i.mnemonic ∧ j.mode = i.mode ∧ j.length = i.length

/-! ### The resolver (spec/40_addressing_modes.md) -/

/-- R102, R103, R104: the zero-page modes, in numbers; the sum wraps modulo 256; one operand
byte. -/
def Obligations.ZeroPageModesResolve : Prop :=
  ∀ s : State,
    (∃ ea, resolve .zeroPage s = some ea ∧ ea.toNat = (memRead s s.pc).toNat) ∧
    (∃ ea, resolve .zeroPageX s = some ea ∧ ea.toNat = ((memRead s s.pc).toNat + s.x.toNat) % 256) ∧
    (∃ ea, resolve .zeroPageY s = some ea ∧ ea.toNat = ((memRead s s.pc).toNat + s.y.toNat) % 256) ∧
    (∀ m ∈ [Mode.zeroPage, .zeroPageX, .zeroPageY], operandLength (operandAt m s) = 1)

/-- R105, R106, R107: the absolute modes, in numbers; little-endian, the sum wraps modulo 65536; two
operand bytes. -/
def Obligations.AbsoluteModesResolve : Prop :=
  ∀ s : State,
    (∃ ea, resolve .absolute s = some ea ∧
      ea.toNat = (memRead s (s.pc + 1)).toNat * 256 + (memRead s s.pc).toNat) ∧
    (∃ ea, resolve .absoluteX s = some ea ∧
      ea.toNat = ((memRead s (s.pc + 1)).toNat * 256 + (memRead s s.pc).toNat + s.x.toNat) % 65536) ∧
    (∃ ea, resolve .absoluteY s = some ea ∧
      ea.toNat = ((memRead s (s.pc + 1)).toNat * 256 + (memRead s s.pc).toNat + s.y.toNat) % 65536) ∧
    (∀ m ∈ [Mode.absolute, .absoluteX, .absoluteY], operandLength (operandAt m s) = 2)

/-- R108, R109: the indirect modes, in numbers. The pointer and its second byte wrap in the zero page; X is added
before the indirection, Y after it modulo 65536; one operand byte. -/
def Obligations.IndirectModesResolve : Prop :=
  ∀ (s : State) (p q : Nat), p = ((memRead s s.pc).toNat + s.x.toNat) % 256 → q = (memRead s s.pc).toNat →
    (∃ ea, resolve .indirectX s = some ea ∧
      ea.toNat = (s.mem.read ((p + 1) % 256)).toNat * 256 + (s.mem.read p).toNat) ∧
    (∃ ea, resolve .indirectY s = some ea ∧
      ea.toNat = ((s.mem.read ((q + 1) % 256)).toNat * 256 + (s.mem.read q).toNat + s.y.toNat) % 65536) ∧
    (∀ m ∈ [Mode.indirectX, .indirectY], operandLength (operandAt m s) = 1)

/-- R101, R110: Immediate resolves to PC itself; the sentinel has no address, and a handler that would resolve it
stops with InvalidAddressingMode, with nothing else changed (R202, R206). -/
def Obligations.SentinelModeRaises : Prop :=
  ∀ (s : State) (r : Byte) (writesA : Bool),
    resolve .immediate s = some s.pc ∧ resolve .none s = none ∧
    (∀ h ∈ [adcHandler .none, compareHandler r .none, andHandler .none, aslHandler .none, bitHandler writesA .none,
        ldaHandler .none, staHandler .none],
      h s = { s with fsm := .faulted, err := some .invalidAddressingMode })

/-- R112: the operand of a fetched instruction is the byte at the address its mode resolves to where its handler
runs, and its decoded operand is the one whose bytes lie at PC. -/
def Obligations.FetchedOperandIsTheResolvedByte : Prop :=
  ∀ (s : State) (i : Instr), fetchInstr s = .ok i →
    operandAt i.mode (afterOpcode s) = i.operand ∧
    effectiveAddress i.operand (afterOpcode s) = resolve i.mode (afterOpcode s) ∧
    operandValue i.operand (afterOpcode s) = (resolve i.mode (afterOpcode s)).map (memRead s)

/-! ### The instructions: result, completion and frame. PC addresses the first operand byte (spec/00_scope.md R8). -/

/-- R150, R122: ADC, in every mode. -/
def Obligations.AdcResultAndFrame : Prop :=
  ∀ (i : Instr) (s : State), i.mnemonic = .adc →
    ∃ m t, operandValue i.operand s = some m ∧ exec i s = .next t ∧
      t.a.toNat = (s.a.toNat + m.toNat + (s.flag .carry).toNat) % 256 ∧
      t.flag .carry = decide (255 < s.a.toNat + m.toNat + (s.flag .carry).toNat) ∧
      t.flag .overflow = decide ((m ^^^ t.a) &&& (t.a ^^^ s.a) &&& 0x80 ≠ 0) ∧
      t.flag .zero = decide (t.a = 0) ∧ t.flag .negative = t.a.msb ∧
      FlagsKept [.carry, .overflow, .zero, .negative] s t ∧
      t.x = s.x ∧ t.y = s.y ∧ MemoryKept [] s t ∧ DispatchKept s t ∧ PcAdvanced i s t ∧
      (i.opcode, i.mode) ∈
        [(0x69, .immediate), (0x65, .zeroPage), (0x75, .zeroPageX), (0x6D, .absolute), (0x7D, .absoluteX),
         (0x79, .absoluteY), (0x61, .indirectX), (0x71, .indirectY)]

/-- The signed reading of ADC's overflow flag (an inference the spec marks as derived, R126): it is set exactly when
the sum of the two's-complement values and the carry lies outside -128 to 127. -/
def Obligations.AdcOverflowIsSignedOverflow : Prop :=
  ∀ (i : Instr) (s : State), i.mnemonic = .adc →
    ∃ m t, operandValue i.operand s = some m ∧ exec i s = .next t ∧
      (t.flag .overflow = true ↔
        signedByte s.a + signedByte m + (s.flag .carry).toNat < -128 ∨
        127 < signedByte s.a + signedByte m + (s.flag .carry).toNat)

/-- R151, R152, R153: the compares, in every mode, with the register each compares. -/
def Obligations.CompareResultAndFrame : Prop :=
  ∀ (i : Instr) (s : State) (r : Byte) (rows : List (Byte × Mode)),
    (i.mnemonic = .cmp ∧ r = s.a ∧ rows =
        [(0xC9, .immediate), (0xC5, .zeroPage), (0xD5, .zeroPageX), (0xCD, .absolute), (0xDD, .absoluteX),
         (0xD9, .absoluteY), (0xC1, .indirectX), (0xD1, .indirectY)]) ∨
    (i.mnemonic = .cpx ∧ r = s.x ∧ rows = [(0xE0, .immediate), (0xE4, .zeroPage), (0xEC, .absolute)]) ∨
    (i.mnemonic = .cpy ∧ r = s.y ∧ rows = [(0xC0, .immediate), (0xC4, .zeroPage), (0xCC, .absolute)]) →
    ∃ m t, operandValue i.operand s = some m ∧ exec i s = .next t ∧
      t.flag .carry = decide (m.toNat ≤ r.toNat) ∧ t.flag .zero = decide (r = m) ∧
      t.flag .negative = decide (128 ≤ (r.toNat + 256 - m.toNat) % 256) ∧
      FlagsKept [.carry, .zero, .negative] s t ∧
      RegistersKept s t ∧ MemoryKept [] s t ∧ DispatchKept s t ∧ PcAdvanced i s t ∧
      (i.opcode, i.mode) ∈ rows

/-- R160: AND, in every mode. -/
def Obligations.AndResultAndFrame : Prop :=
  ∀ (i : Instr) (s : State), i.mnemonic = .and →
    ∃ m t, operandValue i.operand s = some m ∧ exec i s = .next t ∧
      t.a = s.a &&& m ∧ t.flag .zero = decide (s.a &&& m = 0) ∧ t.flag .negative = (s.a &&& m).msb ∧
      FlagsKept [.zero, .negative] s t ∧
      t.x = s.x ∧ t.y = s.y ∧ MemoryKept [] s t ∧ DispatchKept s t ∧ PcAdvanced i s t ∧
      (i.opcode, i.mode) ∈
        [(0x29, .immediate), (0x25, .zeroPage), (0x35, .zeroPageX), (0x2D, .absolute), (0x3D, .absoluteX),
         (0x39, .absoluteY), (0x21, .indirectX), (0x31, .indirectY)]

/-- R161: the accumulator form of ASL. -/
def Obligations.AslAccumulatorResultAndFrame : Prop :=
  ∀ s : State, ∃ t, exec .aslAcc s = .next t ∧
    t.a.toNat = s.a.toNat * 2 % 256 ∧ t.flag .carry = s.a.msb ∧
    t.flag .zero = decide (s.a.toNat * 2 % 256 = 0) ∧ t.flag .negative = decide (128 ≤ s.a.toNat * 2 % 256) ∧
    FlagsKept [.carry, .zero, .negative] s t ∧
    t.x = s.x ∧ t.y = s.y ∧ MemoryKept [] s t ∧ DispatchKept s t ∧ t.pc = s.pc ∧ encode .aslAcc = [0x0A]

/-- R162: the memory form of ASL, in every mode; the byte is written to the address it was read from. The premise
that memory is canonical is an invariant (`StepKeepsInvariant`). -/
def Obligations.AslMemoryResultAndFrame : Prop :=
  ∀ (i : Instr) (s : State), i.mnemonic = .asl → i ≠ .aslAcc → s.mem.wf = true →
    ∃ ea t, effectiveAddress i.operand s = some ea ∧ exec i s = .next t ∧
      (memRead t ea).toNat = (memRead s ea).toNat * 2 % 256 ∧ MemoryKept [ea] s t ∧
      t.flag .carry = (memRead s ea).msb ∧
      t.flag .zero = decide ((memRead s ea).toNat * 2 % 256 = 0) ∧
      t.flag .negative = decide (128 ≤ (memRead s ea).toNat * 2 % 256) ∧
      FlagsKept [.carry, .zero, .negative] s t ∧
      RegistersKept s t ∧ DispatchKept s t ∧ PcAdvanced i s t ∧
      (i.opcode, i.mode) ∈
        [(0x06, .zeroPage), (0x16, .zeroPageX), (0x0E, .absolute), (0x1E, .absoluteX)]

/-- R163: BIT, in both modes, with `BIT_WRITES_A` false as the spec decides (D5, log 7); with it true the same handler
writes `A & m` into A besides. -/
def Obligations.BitResultAndFrame : Prop :=
  ∀ (i : Instr) (s : State), i.mnemonic = .bit →
    ∃ m t, operandValue i.operand s = some m ∧ exec i s = .next t ∧
      t.flag .zero = decide (s.a &&& m = 0) ∧ t.flag .negative = m.getLsbD 7 ∧ t.flag .overflow = m.getLsbD 6 ∧
      FlagsKept [.zero, .negative, .overflow] s t ∧
      RegistersKept s t ∧ MemoryKept [] s t ∧ DispatchKept s t ∧ PcAdvanced i s t ∧
      bitHandler true i.operand s = { t with a := s.a &&& m } ∧
      (i.opcode, i.mode) ∈
        [(0x24, .zeroPage), (0x2C, .absolute)]

/-- The two settings of `BIT_WRITES_A` differ in the accumulator only (an inference the spec marks as derived, R163):
with it A becomes `A & m`. -/
def Obligations.BitVariantsDifferInAccumulatorOnly : Prop :=
  ∀ (o : Operand) (s : State) (m : Byte), operandValue o s = some m →
    (bitHandler false o s).a = s.a ∧
    bitHandler true o s = { bitHandler false o s with a := s.a &&& m }

/-- R170 with the conditions of R171 to R178: the eight branches, taken and not taken; nothing but PC changes. -/
def Obligations.BranchResultAndFrame : Prop :=
  ∀ (s : State) (rel8 : Byte),
    ∀ b ∈ [((0x90 : Byte), Instr.bcc rel8, s.flag .carry = false), (0xB0, .bcs rel8, s.flag .carry = true),
        (0xF0, .beq rel8, s.flag .zero = true), (0xD0, .bne rel8, s.flag .zero = false),
        (0x30, .bmi rel8, s.flag .negative = true), (0x10, .bpl rel8, s.flag .negative = false),
        (0x50, .bvc rel8, s.flag .overflow = false), (0x70, .bvs rel8, s.flag .overflow = true)],
      encode b.2.1 = [b.1, rel8] ∧ ∃ t, exec b.2.1 s = .next t ∧
        (b.2.2 → (t.pc.toNat : Int) = ((s.pc.toNat : Int) + 1 + signedByte rel8) % 65536) ∧
        (¬ b.2.2 → t.pc.toNat = (s.pc.toNat + 1) % 65536) ∧
        RegistersKept s t ∧ FlagsKept [] s t ∧ MemoryKept [] s t ∧ DispatchKept s t

/-- R180 to R183: the flag clears; one flag and nothing else. -/
def Obligations.FlagClearResultAndFrame : Prop :=
  ∀ s : State,
    ∀ c ∈ [((0x18 : Byte), Instr.clc, Flag.carry), (0xD8, .cld, .decimal), (0x58, .cli, .interruptDisable),
        (0xB8, .clv, .overflow)],
      encode c.2.1 = [c.1] ∧ ∃ t, exec c.2.1 s = .next t ∧ t.flag c.2.2 = false ∧ FlagsKept [c.2.2] s t ∧
        RegistersKept s t ∧ MemoryKept [] s t ∧ DispatchKept s t ∧ t.pc = s.pc

/-- R190: LDA, in every mode. -/
def Obligations.LdaResultAndFrame : Prop :=
  ∀ (i : Instr) (s : State), i.mnemonic = .lda →
    ∃ m t, operandValue i.operand s = some m ∧ exec i s = .next t ∧
      t.a = m ∧ t.flag .zero = decide (m = 0) ∧ t.flag .negative = m.msb ∧ FlagsKept [.zero, .negative] s t ∧
      t.x = s.x ∧ t.y = s.y ∧ MemoryKept [] s t ∧ DispatchKept s t ∧ PcAdvanced i s t ∧
      (i.opcode, i.mode) ∈
        [(0xA9, .immediate), (0xA5, .zeroPage), (0xB5, .zeroPageX), (0xAD, .absolute), (0xBD, .absoluteX),
         (0xB9, .absoluteY), (0xA1, .indirectX), (0xB1, .indirectY)]

/-- R191: STA, in every mode. The premise that memory is canonical is an invariant (`StepKeepsInvariant`). -/
def Obligations.StaResultAndFrame : Prop :=
  ∀ (i : Instr) (s : State), i.mnemonic = .sta → s.mem.wf = true →
    ∃ ea t, effectiveAddress i.operand s = some ea ∧ exec i s = .next t ∧
      memRead t ea = s.a ∧ MemoryKept [ea] s t ∧ FlagsKept [] s t ∧
      RegistersKept s t ∧ DispatchKept s t ∧ PcAdvanced i s t ∧
      (i.opcode, i.mode) ∈
        [(0x85, .zeroPage), (0x95, .zeroPageX), (0x8D, .absolute), (0x9D, .absoluteX), (0x99, .absoluteY),
         (0x81, .indirectX), (0x91, .indirectY)]

/-- R195, R196: TAX and INX. -/
def Obligations.TransferIncrementResultAndFrame : Prop :=
  ∀ s : State,
    ∀ c ∈ [((0xAA : Byte), Instr.tax, s.a.toNat), (0xE8, .inx, (s.x.toNat + 1) % 256)],
      encode c.2.1 = [c.1] ∧ ∃ t, exec c.2.1 s = .next t ∧ t.x.toNat = c.2.2 ∧
        t.flag .zero = decide (c.2.2 = 0) ∧ t.flag .negative = decide (128 ≤ c.2.2) ∧
        FlagsKept [.zero, .negative] s t ∧
        t.a = s.a ∧ t.y = s.y ∧ MemoryKept [] s t ∧ DispatchKept s t ∧ t.pc = s.pc

/-- R134: opcode 0x00 halts and changes nothing else: the instruction, and the step that fetches it. -/
def Obligations.HaltOpcodeOnlyHalts : Prop :=
  ∀ s : State, exec .brk s = .next { s with fsm := .halted } ∧
    (s.fsm = .running → memRead s s.pc = 0 → step s = .next { s with pc := s.pc + 1, fsm := .halted })

/-! ### The step (spec/42_dispatch_fsm.md) -/

/-- A step runs the decoded instruction: with PC advanced past the opcode byte and nothing else around it. -/
def Obligations.StepRunsTheDecodedInstruction : Prop :=
  ∀ (s : State) (i : Instr), s.fsm = .running →
    decodeInstr (memRead s s.pc) (memRead s (s.pc + 1)) (memRead s (s.pc + 2)) = .ok i →
    step s = exec i { s with pc := s.pc + 1 }

/-- R135: the unknown-opcode stop. -/
def Obligations.UnknownOpcodeStopsTheRun : Prop :=
  ∀ s : State, s.fsm = .running → decodeOpcode (memRead s s.pc) = none →
    step s = .next
      { s with pc := s.pc + 1, fsm := .faulted, err := some (.unknownOpcode (memRead s s.pc) s.pc) }

/-- A step has a next state exactly when a run is in progress, and stops by name otherwise (the name is the model's,
log 2). -/
def Obligations.StepEnabledExactlyWhileRunning : Prop :=
  ∀ s : State, ((∃ t, step s = .next t) ↔ s.fsm = .running) ∧ (s.fsm ≠ .running → step s = .fault .notRunning)

/-- R81: PC after a step that is not a taken branch is the opcode's address plus the length, and the length is the
one R81 gives the mode. -/
def Obligations.StepAdvancesPcByTheLength : Prop :=
  ∀ (s : State) (i : Instr), s.fsm = .running → fetchInstr s = .ok i → branchTaken i.mnemonic s = false →
    (∃ t, step s = .next t ∧ t.pc = s.pc + BitVec.ofNat 16 (encode i).length) ∧
    (encode i).length =
      match i.mode with
      | .immediate | .zeroPage | .zeroPageX | .zeroPageY | .indirectX | .indirectY => 2
      | .absolute | .absoluteX | .absoluteY => 3
      | .none => if isBranch i.mnemonic then 2 else 1

/-- What no handler touches (an inference the spec marks as derived, R141): Y, `err`, `fsm` but for the halt,
InterruptDisable but for CLI, Decimal but for CLD, and the Break flags. -/
def Obligations.HandlersLeaveTheRestAlone : Prop :=
  ∀ (i : Instr) (s : State), ∃ t, exec i s = .next t ∧ t.y = s.y ∧ t.err = s.err ∧
    (i ≠ .brk → t.fsm = s.fsm) ∧
    (i ≠ .cli → t.flag .interruptDisable = s.flag .interruptDisable) ∧
    (i ≠ .cld → t.flag .decimal = s.flag .decimal) ∧
    t.flag .break1 = s.flag .break1 ∧ t.flag .break2 = s.flag .break2

/-- S1 of the source: after an instruction that goes through the zero and negative update, not both flags are set (an
inference the spec marks as derived, R120). BIT is not one of them. -/
def Obligations.ZeroAndNegativeNeverBothSet : Prop :=
  ∀ (i : Instr) (s : State), i.mnemonic ∈ [.adc, .and, .asl, .cmp, .cpx, .cpy, .lda, .tax, .inx] →
    ∃ t, exec i s = .next t ∧ ¬ (t.flag .zero = true ∧ t.flag .negative = true)

/-- The inert flags: InterruptDisable, Decimal and the Break flags are read by nothing. Changing one before a step
changes at most that flag after it. -/
def Obligations.InertFlagsAreNeverRead : Prop :=
  ∀ (s t : State) (f : Flag) (b : Bool), f ∈ [.interruptDisable, .decimal, .break1, .break2] → step s = .next t →
    ∃ u, step (setFlag f b s) = .next u ∧ RegistersKept t u ∧ u.pc = t.pc ∧ u.mem = t.mem ∧ DispatchKept t u ∧
      FlagsKept [f] t u

/-! ### Memory accesses of a step (spec/42_dispatch_fsm.md R139, spec/20_memory.md) -/

/-- R139: the accesses of a step, in order, begin with the opcode byte, hold at most one write, and are all that a
step does to memory. -/
def Obligations.StepAccessesAccountForMemory : Prop :=
  ∀ s t : State, step s = .next t →
    (stepAccesses s).head? = some (.read s.pc) ∧ ((stepAccesses s).filter Access.isWrite).length ≤ 1 ∧
    t.mem = (stepAccesses s).foldl Access.apply s.mem

/-- R65: a store is seen by the very next fetch: if a step of STA stores to the address that PC then holds, the next
step decodes the stored byte as its opcode. -/
def Obligations.StoreIsSeenByTheNextFetch : Prop :=
  ∀ (s t : State) (i : Instr), s.fsm = .running → s.mem.wf = true → fetchInstr s = .ok i → i.mnemonic = .sta →
    step s = .next t → effectiveAddress i.operand (afterOpcode s) = some t.pc →
    memRead t t.pc = s.a ∧
    (decodeOpcode s.a = none → step t = .next (unknownOpcodeStop t)) ∧
    (s.a = 0 → step t = .next { t with pc := t.pc + 1, fsm := .halted })

/-! ### Invariants -/

/-- Every step keeps the invariant: canonical memory, and an error exactly when Faulted. -/
def Obligations.StepKeepsInvariant : Prop := ∀ s t : State, s.Inv → step s = .next t → t.Inv

/-- Every accepted command keeps it. -/
def Obligations.CommandsKeepInvariant : Prop :=
  ∀ (c : Command) (s t : State), s.Inv → command c s = .next t → t.Inv

/-- The state after reset meets the invariant. -/
def Obligations.ResetMeetsInvariant : Prop := State.reset.Inv

/-- In every state that commands and steps reach from `PowerOn`, Y and Decimal and Break1 are 0, Break2 is 1, and the
sentinel error has not occurred (inferences the spec marks as derived: R23, R26, R110). -/
def Obligations.ReachableStatesKeepPowerOnFacts : Prop :=
  ∀ s : State, Reachable s →
    s.y = 0 ∧ s.flag .decimal = false ∧ s.flag .break1 = false ∧ s.flag .break2 = true ∧
    s.err ≠ some .invalidAddressingMode

/-- `err` after a step that faults is recomputable from the state: `at = PC - 1` and `op = Mem[at]` (an inference the
spec marks with decision D9, R29), and the byte is one the decoder does not know. -/
def Obligations.ErrorLatchNamesTheByteBeforePc : Prop :=
  ∀ s t : State, step s = .next t → t.fsm = .faulted →
    t.err = some (.unknownOpcode (memRead t (t.pc - 1)) (t.pc - 1)) ∧ decodeOpcode (memRead t (t.pc - 1)) = none

/-! ### Commands (spec/70_reset_and_hazards.md) -/

/-- R31: `PowerOn`, accepted in any state (R220); every element takes its power-on value. -/
def Obligations.PowerOnSetsEverything : Prop :=
  ∀ s : State, ∃ t, command .powerOn s = .next t ∧ t.a = 0 ∧ t.x = 0 ∧ t.y = 0 ∧ t.pc = 0 ∧ t.p = 0x24 ∧
    (∀ b : Word, memRead t b = 0) ∧ t.fsm = .idle ∧ t.err = none

/-- R222 with R32: `Reset`; neither Y nor memory is written. -/
def Obligations.ResetSetsRegistersFromTheVector : Prop :=
  ∀ s : State, s.fsm ≠ .running → ∃ t, command .reset s = .next t ∧ t.a = 0 ∧ t.x = 0 ∧ t.y = s.y ∧ t.p = 0x24 ∧
    t.pc.toNat = (memRead s 0xFFFD).toNat * 256 + (memRead s 0xFFFC).toNat ∧
    MemoryKept [] s t ∧ t.fsm = .idle ∧ t.err = none

/-- R33: a second `Reset` in a row changes nothing. -/
def Obligations.ResetIsIdempotent : Prop :=
  ∀ s t : State, command .reset s = .next t → command .reset t = .next t

/-- R221: `Load`, accepted when no run is in progress and the program has at most 0x8000 bytes, writes the program
bytes and then the vector, and nothing else; the bytes that would lie on the
vector are overwritten by it. The premise that memory is canonical is an invariant (`CommandsKeepInvariant`). -/
def Obligations.LoadWritesProgramAndVectorOnly : Prop :=
  ∀ (s : State) (bytes : List Byte), s.mem.wf = true →
    ((∃ t, command (.load bytes) s = .next t) ↔ s.fsm ≠ .running ∧ bytes.length ≤ 0x8000) ∧
    ∀ t, command (.load bytes) s = .next t →
      (∀ (k : Nat) (h : k < bytes.length), k ≠ 0x7FFC → k ≠ 0x7FFD →
        memRead t (BitVec.ofNat 16 (0x8000 + k)) = bytes[k]) ∧
      memRead t 0xFFFC = 0x00 ∧ memRead t 0xFFFD = 0x80 ∧
      (∀ b : Word, b.toNat < 0x8000 ∨ 0x8000 + bytes.length ≤ b.toNat → b ≠ 0xFFFC → b ≠ 0xFFFD →
        memRead t b = memRead s b) ∧
      RegistersKept s t ∧ t.pc = s.pc ∧ t.p = s.p ∧ DispatchKept s t

/-- `Load` and `LoadAndRun` of more than 0x8000 bytes are not accepted (R221, R224; decision D17). -/
def Obligations.OversizeLoadIsRefused : Prop :=
  ∀ (s : State) (bytes : List Byte), s.fsm ≠ .running → 0x8000 < bytes.length →
    command (.load bytes) s = .refused .programTooLong ∧ command (.loadAndRun bytes) s = .refused .programTooLong

/-- While a run is in progress no command but `PowerOn` is accepted (R227). -/
def Obligations.OnlyPowerOnIsAcceptedWhileRunning : Prop :=
  ∀ (s : State) (c : Command), s.fsm = .running →
    ((∃ t, command c s = .next t) ↔ c = .powerOn) ∧
    (c ≠ .powerOn → command c s = .refused .commandWhileRunning)

/-- `Run`: the error latch is cleared, a run is in progress, and nothing else changes (R131). -/
def Obligations.RunOnlyStartsTheRun : Prop :=
  ∀ s : State, s.fsm ≠ .running → command .run s = .next { s with fsm := .running, err := none }

/-- R224: `LoadAndRun` is `Load`, `Reset`, `Run` in that order, and the run starts at 0x8000 with A, X zero and the
status byte 0x24. The premise that memory is canonical is an invariant. -/
def Obligations.LoadAndRunComposesTheCommands : Prop :=
  ∀ (s : State) (bytes : List Byte), s.fsm ≠ .running → s.mem.wf = true → bytes.length ≤ 0x8000 →
    ∃ u v t, command (.load bytes) s = .next u ∧ command .reset u = .next v ∧ command .run v = .next t ∧
      command (.loadAndRun bytes) s = .next t ∧
      t.pc = 0x8000 ∧ t.a = 0 ∧ t.x = 0 ∧ t.p = 0x24 ∧ t.y = s.y ∧ t.fsm = .running ∧ t.err = none

/-! ### Runs, several blocks, and the placing of an instruction -/

/-- R137, R138: a run under a budget ends as halted, faulted or exhausted by the state it ends in, and never
otherwise. -/
def Obligations.RunOutcomeMatchesTheFinalState : Prop :=
  ∀ (budget : Nat) (s : State), s.fsm = .running →
    ∃ t, (runFor budget s = .halted t ∧ t.fsm = .halted) ∨
      (runFor budget s = .faulted t ∧ t.fsm = .faulted ∧ t.err ≠ none) ∨
      (runFor budget s = .exhausted t ∧ t.fsm = .running)

/-- R136: a run takes its steps one after another, each with one of its budget, and the two ways out are opcode 0x00 and
an error; with no budget left it is exhausted where it is (R137). So a larger budget does not change the outcome of a run
that has ended, and a run cut by a budget goes on from where it stopped. -/
def Obligations.LargerBudgetKeepsTheOutcome : Prop :=
  ∀ (k n : Nat) (s t : State),
    (runFor k s = .halted t → runFor (k + n) s = .halted t) ∧
    (runFor k s = .faulted t → runFor (k + n) s = .faulted t) ∧
    (runFor k s = .exhausted t → runFor (k + n) s = runFor n t) ∧
    (s.fsm = .running →
      runFor 0 s = .exhausted s ∧
      (∀ u, step s = .next u → runFor (k + 1) s = runFor k u) ∧
      (memRead s s.pc = 0 → runFor (k + 1) s = .halted { s with pc := s.pc + 1, fsm := .halted }) ∧
      (decodeOpcode (memRead s s.pc) = none → runFor (k + 1) s = .faulted (unknownOpcodeStop s)) ∧
      (memRead s s.pc ≠ 0 → decodeOpcode (memRead s s.pc) ≠ none →
        ∃ u, step s = .next u ∧ u.fsm = .running ∧ runFor (k + 1) s = runFor k u))

/-- R67: several blocks share nothing: a step of one is that block's own step and leaves every other as it was. -/
def Obligations.BlocksAreIndependent : Prop :=
  ∀ (blocks after : List State) (k : Nat), stepBlock k blocks = .next after →
    after.length = blocks.length ∧
    (∃ s t, blocks[k]? = some s ∧ after[k]? = some t ∧ step s = .next t) ∧
    (∀ j, j ≠ k → after[j]? = blocks[j]?)

/-- The placing of an opcode-table word (the model's own, log 3): the next step runs exactly the instruction that the
decoder reads from the word. The premise that memory is canonical is an invariant. -/
def Obligations.PlacedWordIsTheNextInstruction : Prop :=
  ∀ (s : State) (nbits w : Nat) (i : Instr), s.mem.wf = true → decodeTableWord nbits w = some i →
    step (s.withFetchWord nbits w) = exec i (afterOpcode (s.withFetchWord nbits w)) ∧
    ∃ t, step (s.withFetchWord nbits w) = .next t
end

