-- ==== Sys2Proof/Laws/State.lean ====
section
/-! SUPPORT. One lemma for each field of the state and each update of it, true by `rfl`, so that no proof unfolds a
record update. -/

namespace Sys2Proof.Machine

@[simp] theorem memWrite_a (addr : Word) (v : Byte) (s : State) : (memWrite addr v s).a = s.a := rfl
@[simp] theorem memWrite_x (addr : Word) (v : Byte) (s : State) : (memWrite addr v s).x = s.x := rfl
@[simp] theorem memWrite_y (addr : Word) (v : Byte) (s : State) : (memWrite addr v s).y = s.y := rfl
@[simp] theorem memWrite_pc (addr : Word) (v : Byte) (s : State) : (memWrite addr v s).pc = s.pc := rfl
@[simp] theorem memWrite_p (addr : Word) (v : Byte) (s : State) : (memWrite addr v s).p = s.p := rfl
@[simp] theorem memWrite_mem (addr : Word) (v : Byte) (s : State) : (memWrite addr v s).mem = s.mem.write addr.toNat v := rfl
@[simp] theorem memWrite_fsm (addr : Word) (v : Byte) (s : State) : (memWrite addr v s).fsm = s.fsm := rfl
@[simp] theorem memWrite_err (addr : Word) (v : Byte) (s : State) : (memWrite addr v s).err = s.err := rfl

@[simp] theorem advancePc_a (n : Nat) (s : State) : (advancePc n s).a = s.a := rfl
@[simp] theorem advancePc_x (n : Nat) (s : State) : (advancePc n s).x = s.x := rfl
@[simp] theorem advancePc_y (n : Nat) (s : State) : (advancePc n s).y = s.y := rfl
@[simp] theorem advancePc_pc (n : Nat) (s : State) : (advancePc n s).pc = s.pc + BitVec.ofNat 16 n := rfl
@[simp] theorem advancePc_p (n : Nat) (s : State) : (advancePc n s).p = s.p := rfl
@[simp] theorem advancePc_mem (n : Nat) (s : State) : (advancePc n s).mem = s.mem := rfl
@[simp] theorem advancePc_fsm (n : Nat) (s : State) : (advancePc n s).fsm = s.fsm := rfl
@[simp] theorem advancePc_err (n : Nat) (s : State) : (advancePc n s).err = s.err := rfl

@[simp] theorem halt_a (s : State) : (halt s).a = s.a := rfl
@[simp] theorem halt_x (s : State) : (halt s).x = s.x := rfl
@[simp] theorem halt_y (s : State) : (halt s).y = s.y := rfl
@[simp] theorem halt_pc (s : State) : (halt s).pc = s.pc := rfl
@[simp] theorem halt_p (s : State) : (halt s).p = s.p := rfl
@[simp] theorem halt_mem (s : State) : (halt s).mem = s.mem := rfl
@[simp] theorem halt_fsm (s : State) : (halt s).fsm = .halted := rfl
@[simp] theorem halt_err (s : State) : (halt s).err = s.err := rfl

@[simp] theorem takeError_a (e : RunError) (s : State) : (takeError e s).a = s.a := rfl
@[simp] theorem takeError_x (e : RunError) (s : State) : (takeError e s).x = s.x := rfl
@[simp] theorem takeError_y (e : RunError) (s : State) : (takeError e s).y = s.y := rfl
@[simp] theorem takeError_pc (e : RunError) (s : State) : (takeError e s).pc = s.pc := rfl
@[simp] theorem takeError_p (e : RunError) (s : State) : (takeError e s).p = s.p := rfl
@[simp] theorem takeError_mem (e : RunError) (s : State) : (takeError e s).mem = s.mem := rfl
@[simp] theorem takeError_fsm (e : RunError) (s : State) : (takeError e s).fsm = .faulted := rfl
@[simp] theorem takeError_err (e : RunError) (s : State) : (takeError e s).err = some e := rfl

@[simp] theorem startRun_a (s : State) : (startRun s).a = s.a := rfl
@[simp] theorem startRun_x (s : State) : (startRun s).x = s.x := rfl
@[simp] theorem startRun_y (s : State) : (startRun s).y = s.y := rfl
@[simp] theorem startRun_pc (s : State) : (startRun s).pc = s.pc := rfl
@[simp] theorem startRun_p (s : State) : (startRun s).p = s.p := rfl
@[simp] theorem startRun_mem (s : State) : (startRun s).mem = s.mem := rfl
@[simp] theorem startRun_fsm (s : State) : (startRun s).fsm = .running := rfl
@[simp] theorem startRun_err (s : State) : (startRun s).err = none := rfl

@[simp] theorem afterOpcode_a (s : State) : (afterOpcode s).a = s.a := rfl
@[simp] theorem afterOpcode_x (s : State) : (afterOpcode s).x = s.x := rfl
@[simp] theorem afterOpcode_y (s : State) : (afterOpcode s).y = s.y := rfl
@[simp] theorem afterOpcode_pc (s : State) : (afterOpcode s).pc = s.pc + 1 := rfl
@[simp] theorem afterOpcode_p (s : State) : (afterOpcode s).p = s.p := rfl
@[simp] theorem afterOpcode_mem (s : State) : (afterOpcode s).mem = s.mem := rfl
@[simp] theorem afterOpcode_fsm (s : State) : (afterOpcode s).fsm = s.fsm := rfl
@[simp] theorem afterOpcode_err (s : State) : (afterOpcode s).err = s.err := rfl

@[simp] theorem setFlag_a (f : Flag) (b : Bool) (s : State) : (setFlag f b s).a = s.a := rfl
@[simp] theorem setFlag_x (f : Flag) (b : Bool) (s : State) : (setFlag f b s).x = s.x := rfl
@[simp] theorem setFlag_y (f : Flag) (b : Bool) (s : State) : (setFlag f b s).y = s.y := rfl
@[simp] theorem setFlag_pc (f : Flag) (b : Bool) (s : State) : (setFlag f b s).pc = s.pc := rfl
@[simp] theorem setFlag_p (f : Flag) (b : Bool) (s : State) : (setFlag f b s).p = putFlag f b s.p := rfl
@[simp] theorem setFlag_mem (f : Flag) (b : Bool) (s : State) : (setFlag f b s).mem = s.mem := rfl
@[simp] theorem setFlag_fsm (f : Flag) (b : Bool) (s : State) : (setFlag f b s).fsm = s.fsm := rfl
@[simp] theorem setFlag_err (f : Flag) (b : Bool) (s : State) : (setFlag f b s).err = s.err := rfl

@[simp] theorem updateZN_a (v : Byte) (s : State) : (updateZN v s).a = s.a := rfl
@[simp] theorem updateZN_x (v : Byte) (s : State) : (updateZN v s).x = s.x := rfl
@[simp] theorem updateZN_y (v : Byte) (s : State) : (updateZN v s).y = s.y := rfl
@[simp] theorem updateZN_pc (v : Byte) (s : State) : (updateZN v s).pc = s.pc := rfl
@[simp] theorem updateZN_p (v : Byte) (s : State) : (updateZN v s).p = putFlag .negative (v.getLsbD 7) (putFlag .zero (decide (v = 0)) s.p) := rfl
@[simp] theorem updateZN_mem (v : Byte) (s : State) : (updateZN v s).mem = s.mem := rfl
@[simp] theorem updateZN_fsm (v : Byte) (s : State) : (updateZN v s).fsm = s.fsm := rfl
@[simp] theorem updateZN_err (v : Byte) (s : State) : (updateZN v s).err = s.err := rfl

@[simp] theorem setA_a (v : Byte) (s : State) : (setA v s).a = v := rfl
@[simp] theorem setA_x (v : Byte) (s : State) : (setA v s).x = s.x := rfl
@[simp] theorem setA_y (v : Byte) (s : State) : (setA v s).y = s.y := rfl
@[simp] theorem setA_pc (v : Byte) (s : State) : (setA v s).pc = s.pc := rfl
@[simp] theorem setA_p (v : Byte) (s : State) : (setA v s).p = (updateZN v s).p := rfl
@[simp] theorem setA_mem (v : Byte) (s : State) : (setA v s).mem = s.mem := rfl
@[simp] theorem setA_fsm (v : Byte) (s : State) : (setA v s).fsm = s.fsm := rfl
@[simp] theorem setA_err (v : Byte) (s : State) : (setA v s).err = s.err := rfl

@[simp] theorem setX_a (v : Byte) (s : State) : (setX v s).a = s.a := rfl
@[simp] theorem setX_x (v : Byte) (s : State) : (setX v s).x = v := rfl
@[simp] theorem setX_y (v : Byte) (s : State) : (setX v s).y = s.y := rfl
@[simp] theorem setX_pc (v : Byte) (s : State) : (setX v s).pc = s.pc := rfl
@[simp] theorem setX_p (v : Byte) (s : State) : (setX v s).p = (updateZN v s).p := rfl
@[simp] theorem setX_mem (v : Byte) (s : State) : (setX v s).mem = s.mem := rfl
@[simp] theorem setX_fsm (v : Byte) (s : State) : (setX v s).fsm = s.fsm := rfl
@[simp] theorem setX_err (v : Byte) (s : State) : (setX v s).err = s.err := rfl

@[simp] theorem loadProgram_a (bytes : List Byte) (s : State) : (loadProgram bytes s).a = s.a := rfl
@[simp] theorem loadProgram_x (bytes : List Byte) (s : State) : (loadProgram bytes s).x = s.x := rfl
@[simp] theorem loadProgram_y (bytes : List Byte) (s : State) : (loadProgram bytes s).y = s.y := rfl
@[simp] theorem loadProgram_pc (bytes : List Byte) (s : State) : (loadProgram bytes s).pc = s.pc := rfl
@[simp] theorem loadProgram_p (bytes : List Byte) (s : State) : (loadProgram bytes s).p = s.p := rfl
@[simp] theorem loadProgram_mem (bytes : List Byte) (s : State) : (loadProgram bytes s).mem = loadMemory bytes s.mem := rfl
@[simp] theorem loadProgram_fsm (bytes : List Byte) (s : State) : (loadProgram bytes s).fsm = s.fsm := rfl
@[simp] theorem loadProgram_err (bytes : List Byte) (s : State) : (loadProgram bytes s).err = s.err := rfl

@[simp] theorem resetBlock_a (s : State) : (resetBlock s).a = 0 := rfl
@[simp] theorem resetBlock_x (s : State) : (resetBlock s).x = 0 := rfl
@[simp] theorem resetBlock_y (s : State) : (resetBlock s).y = s.y := rfl
@[simp] theorem resetBlock_pc (s : State) : (resetBlock s).pc = read16 s Config.resetVector := rfl
@[simp] theorem resetBlock_p (s : State) : (resetBlock s).p = Config.powerUpStatus := rfl
@[simp] theorem resetBlock_mem (s : State) : (resetBlock s).mem = s.mem := rfl
@[simp] theorem resetBlock_fsm (s : State) : (resetBlock s).fsm = .idle := rfl
@[simp] theorem resetBlock_err (s : State) : (resetBlock s).err = none := rfl

end Sys2Proof.Machine
end

