-- ==== Sys2Proof/Laws/Flags.lean ====
section
/-! SUPPORT. The flags of the status byte: each update writes the flags it names and leaves the others
(spec/10_state.md R25, spec/41_alu_helpers.md R120). -/

namespace Sys2Proof.Machine

theorem Flag.bit_lt (f : Flag) : f.bit < 8 := by cases f <;> decide

theorem Flag.bit_injective {f g : Flag} (h : f.bit = g.bit) : f = g := by
  cases f <;> cases g <;> first | rfl | exact absurd h (by decide)

theorem getFlag_putFlag_self (f : Flag) (b : Bool) (p : Byte) : getFlag f (putFlag f b p) = b := by
  have := f.bit_lt
  cases b <;> simp [getFlag, putFlag, this]

theorem getFlag_putFlag_ne {f g : Flag} (b : Bool) (p : Byte) (h : f ≠ g) :
    getFlag f (putFlag g b p) = getFlag f p := by
  have hb : ¬ f.bit = g.bit := fun e => h (Flag.bit_injective e)
  have := f.bit_lt
  cases b <;> simp [getFlag, putFlag, hb, this]

/-- Two status bytes with the same flags are the same byte. -/
theorem status_ext {p q : Byte} (h : ∀ f : Flag, getFlag f p = getFlag f q) : p = q := by
  refine BitVec.eq_of_getLsbD_eq fun i hi => ?_
  have h0 := h .carry; have h1 := h .zero; have h2 := h .interruptDisable; have h3 := h .decimal
  have h4 := h .break1; have h5 := h .break2; have h6 := h .overflow; have h7 := h .negative
  simp only [getFlag, Flag.bit] at h0 h1 h2 h3 h4 h5 h6 h7
  have : i = 0 ∨ i = 1 ∨ i = 2 ∨ i = 3 ∨ i = 4 ∨ i = 5 ∨ i = 6 ∨ i = 7 := by omega
  rcases this with rfl | rfl | rfl | rfl | rfl | rfl | rfl | rfl <;> assumption

/-- A flag depends on the status byte alone. -/
theorem flag_congr {s t : State} (h : t.p = s.p) (f : Flag) : t.flag f = s.flag f := by simp [State.flag, h]

@[simp] theorem flag_setFlag_self (f : Flag) (b : Bool) (s : State) : (setFlag f b s).flag f = b :=
  getFlag_putFlag_self f b s.p

theorem flag_setFlag_ne {f g : Flag} (b : Bool) (s : State) (h : f ≠ g) : (setFlag g b s).flag f = s.flag f :=
  getFlag_putFlag_ne b s.p h

@[simp] theorem flag_advancePc (n : Nat) (s : State) (f : Flag) : (advancePc n s).flag f = s.flag f := rfl

@[simp] theorem flag_afterOpcode (s : State) (f : Flag) : (afterOpcode s).flag f = s.flag f := rfl

@[simp] theorem flag_memWrite (addr : Word) (v : Byte) (s : State) (f : Flag) :
    (memWrite addr v s).flag f = s.flag f := rfl

@[simp] theorem flag_halt (s : State) (f : Flag) : (halt s).flag f = s.flag f := rfl

@[simp] theorem flag_takeError (e : RunError) (s : State) (f : Flag) : (takeError e s).flag f = s.flag f := rfl

@[simp] theorem flag_startRun (s : State) (f : Flag) : (startRun s).flag f = s.flag f := rfl

/-- What `update_zn` does to each flag (spec/41_alu_helpers.md R120). -/
theorem flag_updateZN (v : Byte) (s : State) (f : Flag) :
    (updateZN v s).flag f =
      if f = .negative then v.getLsbD 7 else if f = .zero then decide (v = 0) else s.flag f := by
  unfold updateZN
  by_cases hn : f = .negative
  · subst hn; simp
  · rw [flag_setFlag_ne _ _ hn, if_neg hn]
    by_cases hz : f = .zero
    · subst hz; simp
    · rw [flag_setFlag_ne _ _ hz, if_neg hz]

theorem flag_setA (v : Byte) (s : State) (f : Flag) : (setA v s).flag f = (updateZN v s).flag f := rfl

theorem flag_setX (v : Byte) (s : State) (f : Flag) : (setX v s).flag f = (updateZN v s).flag f := rfl

/-- What a write of one flag does to each flag. -/
theorem flag_setFlag (g : Flag) (b : Bool) (s : State) (f : Flag) :
    (setFlag g b s).flag f = if f = g then b else s.flag f := by
  by_cases h : f = g
  · subst h; simp
  · rw [flag_setFlag_ne _ _ h, if_neg h]

end Sys2Proof.Machine
end

