-- ==== Sys2Proof/Laws/Memory.lean ====
section
/-! SUPPORT. Memory: a read after a write, the canonical form, and that equal reads make equal memories
(spec/20_memory.md R52). -/

namespace Sys2Proof.Machine

theorem Memory.read_cons_self (n : Nat) (v : Byte) (rest : Memory) (h : rest.read n = emptyByte) :
    (Memory.cons n v rest).read n = v := by
  unfold Memory.cons
  split
  · simp_all
  · simp [Memory.read]

theorem Memory.read_cons_ne {n k : Nat} (v : Byte) (rest : Memory) (h : n ≠ k) :
    (Memory.cons n v rest).read k = rest.read k := by
  unfold Memory.cons
  split
  · rfl
  · simp [Memory.read, h]

/-- Below its lowest cell a canonical memory reads as empty. -/
theorem Memory.read_of_wfFrom {lo n : Nat} {m : Memory} (h : Memory.wfFrom lo m = true) (hn : n < lo) :
    m.read n = emptyByte := by
  induction m generalizing lo with
  | nil => rfl
  | cons c rest ih =>
    obtain ⟨k, v⟩ := c
    simp only [Memory.wfFrom, Bool.and_eq_true, decide_eq_true_eq] at h
    have hk : k ≠ n := by omega
    simp only [Memory.read, if_neg hk]
    exact ih h.2 (by omega)

theorem Memory.wfFrom_mono {lo hi : Nat} {m : Memory} (hle : lo ≤ hi) (h : Memory.wfFrom hi m = true) :
    Memory.wfFrom lo m = true := by
  cases m with
  | nil => rfl
  | cons c rest =>
    obtain ⟨k, v⟩ := c
    simp only [Memory.wfFrom, Bool.and_eq_true, decide_eq_true_eq] at h ⊢
    exact ⟨⟨⟨by omega, h.1.1.2⟩, h.1.2⟩, h.2⟩

theorem Memory.wfFrom_cons {lo n : Nat} {v : Byte} {rest : Memory} (hlo : lo ≤ n) (hn : n < Config.memSize)
    (h : Memory.wfFrom (n + 1) rest = true) : Memory.wfFrom lo (Memory.cons n v rest) = true := by
  unfold Memory.cons
  split
  · exact Memory.wfFrom_mono (by omega) h
  · simp_all [Memory.wfFrom]

/-- A write keeps the canonical form from any address at or below the written one. -/
theorem Memory.wfFrom_write {lo n : Nat} {m : Memory} (v : Byte) (hlo : lo ≤ n) (hn : n < Config.memSize)
    (h : Memory.wfFrom lo m = true) : Memory.wfFrom lo (m.write n v) = true := by
  induction m generalizing lo with
  | nil => exact Memory.wfFrom_cons hlo hn rfl
  | cons c rest ih =>
    obtain ⟨k, w⟩ := c
    have hw := h
    simp only [Memory.wfFrom, Bool.and_eq_true, decide_eq_true_eq] at h
    simp only [Memory.write]
    split
    · refine Memory.wfFrom_cons hlo hn ?_
      simp only [Memory.wfFrom, Bool.and_eq_true, decide_eq_true_eq]
      exact ⟨⟨⟨by omega, h.1.1.2⟩, h.1.2⟩, h.2⟩
    · split
      · next hnk => exact Memory.wfFrom_cons hlo hn (hnk ▸ h.2)
      · simp only [Memory.wfFrom, Bool.and_eq_true, decide_eq_true_eq]
        exact ⟨h.1, ih (by omega) h.2⟩

/-- Every write keeps the canonical form. -/
theorem Memory.wf_write {m : Memory} (addr : Word) (v : Byte) (h : m.wf = true) :
    (m.write addr.toNat v).wf = true :=
  Memory.wfFrom_write v (Nat.zero_le _) addr.isLt h

/-- The write of a list of bytes keeps the canonical form. -/
theorem Memory.wf_writeBytes {m : Memory} (addr : Word) (bytes : List Byte) (h : m.wf = true) :
    (m.writeBytes addr bytes).wf = true := by
  induction bytes generalizing m addr with
  | nil => exact h
  | cons b rest ih => exact ih (addr + 1) (Memory.wf_write addr b h)

/-- What was written is read back. -/
theorem Memory.read_write_self {lo n : Nat} {m : Memory} (v : Byte) (h : Memory.wfFrom lo m = true) :
    (m.write n v).read n = v := by
  induction m generalizing lo with
  | nil => exact Memory.read_cons_self n v [] rfl
  | cons c rest ih =>
    obtain ⟨k, w⟩ := c
    have hw := h
    simp only [Memory.wfFrom, Bool.and_eq_true, decide_eq_true_eq] at h
    simp only [Memory.write]
    split
    · next hnk =>
      refine Memory.read_cons_self n v _ (Memory.read_of_wfFrom (lo := k) ?_ hnk)
      simp only [Memory.wfFrom, Bool.and_eq_true, decide_eq_true_eq]
      exact ⟨⟨⟨Nat.le_refl _, h.1.1.2⟩, h.1.2⟩, h.2⟩
    · split
      · next hnk =>
        exact Memory.read_cons_self n v rest (Memory.read_of_wfFrom (hnk ▸ h.2) (by omega))
      · next hnk =>
        have : k ≠ n := fun e => hnk e.symm
        simpa [Memory.read, this] using ih h.2

/-- A write leaves every other address alone. -/
theorem Memory.read_write_ne {n k : Nat} (m : Memory) (v : Byte) (h : n ≠ k) :
    (m.write n v).read k = m.read k := by
  induction m with
  | nil => exact Memory.read_cons_ne v [] h
  | cons c rest ih =>
    obtain ⟨j, w⟩ := c
    simp only [Memory.write]
    split
    · exact Memory.read_cons_ne v _ h
    · split
      · next hnj => rw [Memory.read_cons_ne v rest h]; simp [Memory.read, ← hnj, h]
      · simp [Memory.read, ih]

/-- Canonical memories that read alike everywhere are equal. -/
theorem Memory.ext_of_read {lo : Nat} {m n : Memory} (hm : Memory.wfFrom lo m = true)
    (hn : Memory.wfFrom lo n = true) (h : ∀ k : Nat, m.read k = n.read k) : m = n := by
  induction m generalizing lo n with
  | nil =>
    cases n with
    | nil => rfl
    | cons c rest =>
      obtain ⟨k, v⟩ := c
      simp only [Memory.wfFrom, Bool.and_eq_true, decide_eq_true_eq] at hn
      exact absurd (by simpa [Memory.read] using (h k).symm) hn.1.2
  | cons c rest ih =>
    obtain ⟨k, v⟩ := c
    have hm' := hm
    simp only [Memory.wfFrom, Bool.and_eq_true, decide_eq_true_eq] at hm
    cases n with
    | nil => exact absurd (by simpa [Memory.read] using h k) hm.1.2
    | cons d rest' =>
      obtain ⟨j, w⟩ := d
      have hn' := hn
      simp only [Memory.wfFrom, Bool.and_eq_true, decide_eq_true_eq] at hn
      have hjk : k = j := by
        rcases Nat.lt_trichotomy k j with hlt | heq | hlt
        · have h1 := h k
          have hne : j ≠ k := by omega
          rw [Memory.read, if_pos rfl, Memory.read, if_neg hne, Memory.read_of_wfFrom hn.2 (by omega)] at h1
          exact absurd h1 hm.1.2
        · exact heq
        · have h1 := h j
          have hne : k ≠ j := by omega
          rw [Memory.read, if_neg hne, Memory.read, if_pos rfl, Memory.read_of_wfFrom hm.2 (by omega)] at h1
          exact absurd h1.symm hn.1.2
      subst hjk
      have hvw : v = w := by simpa [Memory.read] using h k
      subst hvw
      congr 1
      refine ih hm.2 hn.2 fun i => ?_
      by_cases hi : k = i
      · subst hi
        rw [Memory.read_of_wfFrom hm.2 (by omega), Memory.read_of_wfFrom hn.2 (by omega)]
      · simpa [Memory.read, hi] using h i

/-! ### The same for the state -/

theorem memRead_memWrite_self {s : State} (addr : Word) (v : Byte) (h : s.mem.wf = true) :
    memRead (memWrite addr v s) addr = v := Memory.read_write_self v h

theorem memRead_memWrite_ne (s : State) {addr b : Word} (v : Byte) (h : b ≠ addr) :
    memRead (memWrite addr v s) b = memRead s b :=
  Memory.read_write_ne s.mem v fun e => h (BitVec.eq_of_toNat_eq e.symm)

/-- A read depends on memory alone. -/
theorem memRead_congr {s t : State} (h : t.mem = s.mem) (b : Word) : memRead t b = memRead s b := by
  simp [memRead, h]

theorem reset_mem_wf : State.reset.mem.wf = true := rfl

theorem powerOnState_eq_reset : powerOnState = State.reset := rfl

end Sys2Proof.Machine
end

