-- ==== Sys2Proof/Laws/Operands.lean ====
section
/-! SUPPORT. The resolver and the two shapes of a handler: everything they can do (spec/40_addressing_modes.md R112,
spec/60_exceptions.md R206). -/

namespace Sys2Proof.Machine

/-- The resolver refuses the sentinel and nothing else (spec/40_addressing_modes.md R110). -/
theorem effectiveAddress_eq_none_iff (o : Operand) (s : State) : effectiveAddress o s = none ↔ o = .none := by
  cases o <;> simp [effectiveAddress]

theorem operandValue_eq_none_iff (o : Operand) (s : State) : operandValue o s = none ↔ o = .none := by
  cases o <;> simp [operandValue, effectiveAddress]

/-- The operand of every mode but Immediate is the byte at its effective address. -/
theorem operandValue_of_address {o : Operand} {s : State} {addr : Word} (h : effectiveAddress o s = some addr)
    (himm : o.mode ≠ .immediate) : operandValue o s = some (memRead s addr) := by
  cases o <;> simp_all [operandValue, Operand.mode]

/-- Everything a handler that reads its operand can do. -/
theorem withOperand_cases (o : Operand) (work : Byte → State → State) (s : State) :
    (∃ m, operandValue o s = some m ∧ withOperand o work s = advancePc (operandLength o) (work m s)) ∨
    (o = .none ∧ withOperand o work s = takeError .invalidAddressingMode s) := by
  unfold withOperand
  cases h : operandValue o s with
  | some m => exact .inl ⟨m, rfl, rfl⟩
  | none => exact .inr ⟨(operandValue_eq_none_iff o s).1 h, rfl⟩

/-- Everything a handler that works on its effective address can do. -/
theorem withAddress_cases (o : Operand) (work : Word → State → State) (s : State) :
    (∃ addr, effectiveAddress o s = some addr ∧
      withAddress o work s = advancePc (operandLength o) (work addr s)) ∨
    (o = .none ∧ withAddress o work s = takeError .invalidAddressingMode s) := by
  unfold withAddress
  cases h : effectiveAddress o s with
  | some addr => exact .inl ⟨addr, rfl, rfl⟩
  | none => exact .inr ⟨(effectiveAddress_eq_none_iff o s).1 h, rfl⟩

theorem withOperand_of_value {o : Operand} {s : State} {m : Byte} (work : Byte → State → State)
    (h : operandValue o s = some m) : withOperand o work s = advancePc (operandLength o) (work m s) := by
  simp [withOperand, h]

theorem withAddress_of_address {o : Operand} {s : State} {addr : Word} (work : Word → State → State)
    (h : effectiveAddress o s = some addr) :
    withAddress o work s = advancePc (operandLength o) (work addr s) := by
  simp [withAddress, h]

end Sys2Proof.Machine
end

