-- ==== Sys2Proof/Laws/Alu.lean ====
section
/-! SUPPORT. What each state-writing helper of the ALU does, field by field (spec/41_alu_helpers.md): the fields it
leaves alone by `rfl`, and its flags by one lemma each. -/

namespace Sys2Proof.Machine

/-- The fields `adc` leaves alone, and the accumulator (R122). -/
theorem addWithCarry_fields (m : Byte) (s : State) :
    (addWithCarry m s).a = adcResult s.a m (s.flag .carry) ∧ (addWithCarry m s).x = s.x ∧
    (addWithCarry m s).y = s.y ∧ (addWithCarry m s).pc = s.pc ∧ (addWithCarry m s).mem = s.mem ∧
    (addWithCarry m s).fsm = s.fsm ∧ (addWithCarry m s).err = s.err := by
  refine ⟨rfl, rfl, rfl, rfl, rfl, rfl, rfl⟩

/-- The flags of `adc` (R122). -/
theorem flag_addWithCarry (m : Byte) (s : State) (f : Flag) :
    (addWithCarry m s).flag f =
      match f with
      | .negative => (adcResult s.a m (s.flag .carry)).getLsbD 7
      | .zero => decide (adcResult s.a m (s.flag .carry) = 0)
      | .overflow => adcOverflow s.a m (s.flag .carry)
      | .carry => adcCarry s.a m (s.flag .carry)
      | .interruptDisable | .decimal | .break1 | .break2 => s.flag f := by
  cases f <;> simp [addWithCarry, flag_setA, flag_updateZN, flag_setFlag]

/-- A compare writes the status byte only (spec/43_arithmetic_compare.md R151). -/
theorem compareWith_fields (r m : Byte) (s : State) :
    (compareWith r m s).a = s.a ∧ (compareWith r m s).x = s.x ∧ (compareWith r m s).y = s.y ∧
    (compareWith r m s).pc = s.pc ∧ (compareWith r m s).mem = s.mem ∧ (compareWith r m s).fsm = s.fsm ∧
    (compareWith r m s).err = s.err := by
  refine ⟨rfl, rfl, rfl, rfl, rfl, rfl, rfl⟩

theorem flag_compareWith (r m : Byte) (s : State) (f : Flag) :
    (compareWith r m s).flag f =
      match f with
      | .negative => (cmp8 r m).getLsbD 7
      | .zero => decide (cmp8 r m = 0)
      | .carry => cmp8Carry r m
      | .overflow | .interruptDisable | .decimal | .break1 | .break2 => s.flag f := by
  cases f <;> simp [compareWith, flag_updateZN, flag_setFlag]

/-- BIT writes the status byte, and the accumulator only where the parameter says so
(spec/44_logic_shift.md R163). -/
theorem bitTest_fields (writesA : Bool) (m : Byte) (s : State) :
    (bitTest writesA m s).a = (if writesA then and8 s.a m else s.a) ∧ (bitTest writesA m s).x = s.x ∧
    (bitTest writesA m s).y = s.y ∧ (bitTest writesA m s).pc = s.pc ∧ (bitTest writesA m s).mem = s.mem ∧
    (bitTest writesA m s).fsm = s.fsm ∧ (bitTest writesA m s).err = s.err := by
  cases writesA <;> refine ⟨rfl, rfl, rfl, rfl, rfl, rfl, rfl⟩

theorem flag_bitTest (writesA : Bool) (m : Byte) (s : State) (f : Flag) :
    (bitTest writesA m s).flag f =
      match f with
      | .negative => m.getLsbD 7
      | .zero => decide (and8 s.a m = 0)
      | .overflow => m.getLsbD 6
      | .carry | .interruptDisable | .decimal | .break1 | .break2 => s.flag f := by
  have hp : (bitTest writesA m s).flag f = (bitFlags m s).flag f := by cases writesA <;> rfl
  rw [hp]
  cases f <;> simp [bitFlags, flag_setFlag]

theorem shiftA_fields (s : State) :
    (shiftA s).a = asl8 s.a ∧ (shiftA s).x = s.x ∧ (shiftA s).y = s.y ∧ (shiftA s).pc = s.pc ∧
    (shiftA s).mem = s.mem ∧ (shiftA s).fsm = s.fsm ∧ (shiftA s).err = s.err := by
  refine ⟨rfl, rfl, rfl, rfl, rfl, rfl, rfl⟩

theorem flag_shiftA (s : State) (f : Flag) :
    (shiftA s).flag f =
      match f with
      | .negative => (asl8 s.a).getLsbD 7
      | .zero => decide (asl8 s.a = 0)
      | .carry => asl8Carry s.a
      | .overflow | .interruptDisable | .decimal | .break1 | .break2 => s.flag f := by
  cases f <;> simp [shiftA, flag_setA, flag_updateZN, flag_setFlag]

theorem shiftMem_fields (addr : Word) (s : State) :
    (shiftMem addr s).a = s.a ∧ (shiftMem addr s).x = s.x ∧ (shiftMem addr s).y = s.y ∧
    (shiftMem addr s).pc = s.pc ∧ (shiftMem addr s).mem = s.mem.write addr.toNat (asl8 (memRead s addr)) ∧
    (shiftMem addr s).fsm = s.fsm ∧ (shiftMem addr s).err = s.err := by
  refine ⟨rfl, rfl, rfl, rfl, rfl, rfl, rfl⟩

theorem flag_shiftMem (addr : Word) (s : State) (f : Flag) :
    (shiftMem addr s).flag f =
      match f with
      | .negative => (asl8 (memRead s addr)).getLsbD 7
      | .zero => decide (asl8 (memRead s addr) = 0)
      | .carry => asl8Carry (memRead s addr)
      | .overflow | .interruptDisable | .decimal | .break1 | .break2 => s.flag f := by
  cases f <;> simp [shiftMem, flag_updateZN, flag_setFlag]

/-- What the common branch rule does: PC only (spec/45_branch.md R170). -/
theorem branchIf_eq (cond : Bool) (rel8 : Byte) (s : State) :
    branchIf cond rel8 s = { s with pc := if cond then s.pc + 1 + sext16 rel8 else s.pc + 1 } := by
  cases cond <;> rfl

end Sys2Proof.Machine
end

