-- ==== Sys2Proof/Laws/Decode.lean ====
section
/-! SUPPORT. The byte helpers and the two ways the decoder answers. -/

namespace Sys2Proof

@[simp] theorem joinBytes_high_low (w : Word) : joinBytes (highByte w) (lowByte w) = w := by
  apply BitVec.eq_of_toNat_eq
  have := w.isLt
  simp only [joinBytes, highByte, lowByte, BitVec.toNat_ofNat]
  omega

@[simp] theorem highByte_joinBytes (hi lo : Byte) : highByte (joinBytes hi lo) = hi := by
  apply BitVec.eq_of_toNat_eq
  have := hi.isLt; have := lo.isLt
  simp only [joinBytes, highByte, BitVec.toNat_ofNat]
  omega

@[simp] theorem lowByte_joinBytes (hi lo : Byte) : lowByte (joinBytes hi lo) = lo := by
  apply BitVec.eq_of_toNat_eq
  have := hi.isLt; have := lo.isLt
  simp only [joinBytes, lowByte, BitVec.toNat_ofNat]
  omega

/-- The decoder answers an instruction exactly when the table has a row for the opcode byte. -/
theorem decodeInstr_ok_iff {op lo hi : Byte} {i : Instr} :
    decodeInstr op lo hi = .ok i ↔ ∃ r, rowOf op = some r ∧ r.make lo hi = i := by
  unfold decodeInstr
  cases h : rowOf op <;> simp

/-- Its only other answer names the byte (spec/30_encoding.md R85). -/
theorem decodeInstr_error_iff {op lo hi : Byte} {e : DecodeError} :
    decodeInstr op lo hi = .error e ↔ rowOf op = none ∧ e = .unknownOpcode op := by
  unfold decodeInstr
  cases h : rowOf op <;> simp [eq_comm]

/-- A row that the table has for a byte is one of the 67 and carries that byte. -/
theorem rowOf_some {op : Byte} {r : Row} (h : rowOf op = some r) : r ∈ opcodeRows ∧ r.opcode = op :=
  ⟨List.mem_of_find?_eq_some h, by simpa using List.find?_some h⟩

/-- What holds of every row of the table holds of its five parts. -/
theorem forall_opcodeRows {P : Row → Prop} (h1 : ∀ r ∈ arithmeticRows, P r) (h2 : ∀ r ∈ logicShiftRows, P r)
    (h3 : ∀ r ∈ branchRows, P r) (h4 : ∀ r ∈ impliedRows, P r) (h5 : ∀ r ∈ loadStoreRows, P r) :
    ∀ r ∈ opcodeRows, P r := by
  intro r hr
  simp only [opcodeRows, List.mem_append] at hr
  rcases hr with (((hr | hr) | hr) | hr) | hr
  exacts [h1 r hr, h2 r hr, h3 r hr, h4 r hr, h5 r hr]

/-- A row's columns describe the instruction it makes. -/
def Row.Describes (r : Row) : Prop :=
  ∀ lo hi : Byte, (r.make lo hi).opcode = r.opcode ∧ (r.make lo hi).mnemonic = r.mnemonic ∧
    (r.make lo hi).mode = r.mode ∧ (r.make lo hi).format = r.format ∧
    (r.make lo hi).operandBytes = [lo, hi].take r.format.operandBytes

theorem row_describes : ∀ r ∈ opcodeRows, r.Describes := by
  apply forall_opcodeRows <;> intro r hr lo hi <;>
    simp only [arithmeticRows, logicShiftRows, branchRows, impliedRows, loadStoreRows, List.mem_cons,
      List.not_mem_nil, or_false] at hr
  all_goals
    repeat' first
      | (rcases hr with rfl | hr)
      | subst hr
  all_goals
    refine ⟨rfl, rfl, rfl, rfl, ?_⟩
    simp [Instr.operandBytes, Format.operandBytes]

/-- What the decoder answers has the opcode byte it was given, and its operand bytes are the ones after it. -/
theorem decodeInstr_ok {op lo hi : Byte} {i : Instr} (h : decodeInstr op lo hi = .ok i) :
    i.opcode = op ∧ i.operandBytes = [lo, hi].take i.format.operandBytes := by
  obtain ⟨r, hr, rfl⟩ := decodeInstr_ok_iff.1 h
  obtain ⟨hm, hop⟩ := rowOf_some hr
  obtain ⟨ho, -, -, hf, hb⟩ := row_describes r hm lo hi
  exact ⟨ho.trans hop, by rw [hb, hf]⟩

end Sys2Proof
end

