-- ==== Sys2Proof/Laws/Exec.lean ====
section
/-! SUPPORT. The handler of every row of a mnemonic (spec/42_dispatch_fsm.md R140: rows of one mnemonic run the same
pseudocode and differ in their operand only), and what the rows of the table have in common. -/

namespace Sys2Proof.Machine

/-- A row that reads or writes memory has a resolvable operand, and consumes the operand bytes of its format. -/
theorem operand_of_memory_form {i : Instr} (h : i.mode ≠ .none) :
    i.operand ≠ .none ∧ operandLength i.operand = i.format.operandBytes := by
  cases i <;> first | exact absurd rfl h | exact ⟨Operand.noConfusion, rfl⟩

theorem exec_adc {i : Instr} (h : i.mnemonic = .adc) (s : State) :
    i.mode ≠ .none ∧ exec i s = .next (adcHandler i.operand s) := by
  cases i <;> first | cases h; done | exact ⟨Mode.noConfusion, rfl⟩

theorem exec_cmp {i : Instr} (h : i.mnemonic = .cmp) (s : State) :
    i.mode ≠ .none ∧ exec i s = .next (compareHandler s.a i.operand s) := by
  cases i <;> first | cases h; done | exact ⟨Mode.noConfusion, rfl⟩

theorem exec_cpx {i : Instr} (h : i.mnemonic = .cpx) (s : State) :
    i.mode ≠ .none ∧ exec i s = .next (compareHandler s.x i.operand s) := by
  cases i <;> first | cases h; done | exact ⟨Mode.noConfusion, rfl⟩

theorem exec_cpy {i : Instr} (h : i.mnemonic = .cpy) (s : State) :
    i.mode ≠ .none ∧ exec i s = .next (compareHandler s.y i.operand s) := by
  cases i <;> first | cases h; done | exact ⟨Mode.noConfusion, rfl⟩

theorem exec_and {i : Instr} (h : i.mnemonic = .and) (s : State) :
    i.mode ≠ .none ∧ exec i s = .next (andHandler i.operand s) := by
  cases i <;> first | cases h; done | exact ⟨Mode.noConfusion, rfl⟩

theorem exec_asl {i : Instr} (h : i.mnemonic = .asl) (hacc : i ≠ .aslAcc) (s : State) :
    i.mode ≠ .none ∧ exec i s = .next (aslHandler i.operand s) := by
  cases i <;> first | cases h; done | exact absurd rfl hacc | exact ⟨Mode.noConfusion, rfl⟩

theorem exec_bit {i : Instr} (h : i.mnemonic = .bit) (s : State) :
    i.mode ≠ .none ∧ exec i s = .next (bitHandler Config.bitWritesA i.operand s) := by
  cases i <;> first | cases h; done | exact ⟨Mode.noConfusion, rfl⟩

theorem exec_lda {i : Instr} (h : i.mnemonic = .lda) (s : State) :
    i.mode ≠ .none ∧ exec i s = .next (ldaHandler i.operand s) := by
  cases i <;> first | cases h; done | exact ⟨Mode.noConfusion, rfl⟩

theorem exec_sta {i : Instr} (h : i.mnemonic = .sta) (s : State) :
    i.mode ≠ .none ∧ exec i s = .next (staHandler i.operand s) := by
  cases i <;> first | cases h; done | exact ⟨Mode.noConfusion, rfl⟩

/-- Every instruction is of one of the nine mnemonics above, the accumulator shift, a branch, a flag clear, a write
of X, or the halt. -/
theorem exec_cases (i : Instr) (s : State) :
    i.mode ≠ .none ∧ (i.mnemonic = .adc ∨ i.mnemonic = .cmp ∨ i.mnemonic = .cpx ∨ i.mnemonic = .cpy ∨
      i.mnemonic = .and ∨ (i.mnemonic = .asl ∧ i ≠ .aslAcc) ∨ i.mnemonic = .bit ∨ i.mnemonic = .lda ∨
      i.mnemonic = .sta) ∨
    (i = .aslAcc ∧ exec i s = .next (shiftA s)) ∨
    (isBranch i.mnemonic = true ∧ ∃ rel8, exec i s = .next (branchIf (branchTaken i.mnemonic s) rel8 s)) ∨
    (i.format = .imp ∧ i ≠ .brk ∧ ∃ f, (f = .carry ∨ f = .decimal ∧ i = .cld ∨ f = .interruptDisable ∧ i = .cli ∨ f = .overflow) ∧
      exec i s = .next (setFlag f false s)) ∨
    (i.format = .imp ∧ i ≠ .brk ∧ ∃ v, exec i s = .next (setX v s)) ∨ (i = .brk ∧ exec i s = .next (halt s)) := by
  cases i
  case aslAcc => exact .inr (.inl ⟨rfl, rfl⟩)
  case clc => exact .inr (.inr (.inr (.inl ⟨rfl, Instr.noConfusion, .carry, .inl rfl, rfl⟩)))
  case cld => exact .inr (.inr (.inr (.inl ⟨rfl, Instr.noConfusion, .decimal, .inr (.inl ⟨rfl, rfl⟩), rfl⟩)))
  case cli => exact .inr (.inr (.inr (.inl ⟨rfl, Instr.noConfusion, .interruptDisable, .inr (.inr (.inl ⟨rfl, rfl⟩)), rfl⟩)))
  case clv => exact .inr (.inr (.inr (.inl ⟨rfl, Instr.noConfusion, .overflow, .inr (.inr (.inr rfl)), rfl⟩)))
  case tax => exact .inr (.inr (.inr (.inr (.inl ⟨rfl, Instr.noConfusion, _, rfl⟩))))
  case inx => exact .inr (.inr (.inr (.inr (.inl ⟨rfl, Instr.noConfusion, _, rfl⟩))))
  case brk => exact .inr (.inr (.inr (.inr (.inr ⟨rfl, rfl⟩))))
  case bcc d => exact .inr (.inr (.inl ⟨rfl, d, rfl⟩))
  case bcs d => exact .inr (.inr (.inl ⟨rfl, d, rfl⟩))
  case beq d => exact .inr (.inr (.inl ⟨rfl, d, rfl⟩))
  case bmi d => exact .inr (.inr (.inl ⟨rfl, d, rfl⟩))
  case bne d => exact .inr (.inr (.inl ⟨rfl, d, rfl⟩))
  case bpl d => exact .inr (.inr (.inl ⟨rfl, d, rfl⟩))
  case bvc d => exact .inr (.inr (.inl ⟨rfl, d, rfl⟩))
  case bvs d => exact .inr (.inr (.inl ⟨rfl, d, rfl⟩))
  all_goals exact .inl ⟨Mode.noConfusion, by simp [Instr.mnemonic]⟩

end Sys2Proof.Machine
end

