-- ==== Sys2Proof/Laws/PerInstr.lean ====
section
/-! SUPPORT. A fact about every instruction as syntax: it is well formed, and its encoding has the length of its
format (spec/30_encoding.md R81). One lemma for each constructor. -/

namespace Sys2Proof.Laws

/-- The encoding of an instruction is as long as its format says, and the opcode map has its mnemonic and mode. -/
def EncodedLength.Statement (i : Instr) : Prop := (encode i).length = i.length ∧ i.wellFormed = true

theorem EncodedLength.adcImm (imm8 : Byte) : EncodedLength.Statement (.adcImm imm8) := ⟨rfl, rfl⟩
theorem EncodedLength.adcZp (zp8 : Byte) : EncodedLength.Statement (.adcZp zp8) := ⟨rfl, rfl⟩
theorem EncodedLength.adcZpX (zp8 : Byte) : EncodedLength.Statement (.adcZpX zp8) := ⟨rfl, rfl⟩
theorem EncodedLength.adcAbs (addr : Word) : EncodedLength.Statement (.adcAbs addr) := ⟨rfl, rfl⟩
theorem EncodedLength.adcAbsX (addr : Word) : EncodedLength.Statement (.adcAbsX addr) := ⟨rfl, rfl⟩
theorem EncodedLength.adcAbsY (addr : Word) : EncodedLength.Statement (.adcAbsY addr) := ⟨rfl, rfl⟩
theorem EncodedLength.adcIndX (zp8 : Byte) : EncodedLength.Statement (.adcIndX zp8) := ⟨rfl, rfl⟩
theorem EncodedLength.adcIndY (zp8 : Byte) : EncodedLength.Statement (.adcIndY zp8) := ⟨rfl, rfl⟩
theorem EncodedLength.andImm (imm8 : Byte) : EncodedLength.Statement (.andImm imm8) := ⟨rfl, rfl⟩
theorem EncodedLength.andZp (zp8 : Byte) : EncodedLength.Statement (.andZp zp8) := ⟨rfl, rfl⟩
theorem EncodedLength.andZpX (zp8 : Byte) : EncodedLength.Statement (.andZpX zp8) := ⟨rfl, rfl⟩
theorem EncodedLength.andAbs (addr : Word) : EncodedLength.Statement (.andAbs addr) := ⟨rfl, rfl⟩
theorem EncodedLength.andAbsX (addr : Word) : EncodedLength.Statement (.andAbsX addr) := ⟨rfl, rfl⟩
theorem EncodedLength.andAbsY (addr : Word) : EncodedLength.Statement (.andAbsY addr) := ⟨rfl, rfl⟩
theorem EncodedLength.andIndX (zp8 : Byte) : EncodedLength.Statement (.andIndX zp8) := ⟨rfl, rfl⟩
theorem EncodedLength.andIndY (zp8 : Byte) : EncodedLength.Statement (.andIndY zp8) := ⟨rfl, rfl⟩
theorem EncodedLength.aslAcc : EncodedLength.Statement (.aslAcc) := ⟨rfl, rfl⟩
theorem EncodedLength.aslZp (zp8 : Byte) : EncodedLength.Statement (.aslZp zp8) := ⟨rfl, rfl⟩
theorem EncodedLength.aslZpX (zp8 : Byte) : EncodedLength.Statement (.aslZpX zp8) := ⟨rfl, rfl⟩
theorem EncodedLength.aslAbs (addr : Word) : EncodedLength.Statement (.aslAbs addr) := ⟨rfl, rfl⟩
theorem EncodedLength.aslAbsX (addr : Word) : EncodedLength.Statement (.aslAbsX addr) := ⟨rfl, rfl⟩
theorem EncodedLength.bcc (rel8 : Byte) : EncodedLength.Statement (.bcc rel8) := ⟨rfl, rfl⟩
theorem EncodedLength.bcs (rel8 : Byte) : EncodedLength.Statement (.bcs rel8) := ⟨rfl, rfl⟩
theorem EncodedLength.beq (rel8 : Byte) : EncodedLength.Statement (.beq rel8) := ⟨rfl, rfl⟩
theorem EncodedLength.bmi (rel8 : Byte) : EncodedLength.Statement (.bmi rel8) := ⟨rfl, rfl⟩
theorem EncodedLength.bne (rel8 : Byte) : EncodedLength.Statement (.bne rel8) := ⟨rfl, rfl⟩
theorem EncodedLength.bpl (rel8 : Byte) : EncodedLength.Statement (.bpl rel8) := ⟨rfl, rfl⟩
theorem EncodedLength.bvc (rel8 : Byte) : EncodedLength.Statement (.bvc rel8) := ⟨rfl, rfl⟩
theorem EncodedLength.bvs (rel8 : Byte) : EncodedLength.Statement (.bvs rel8) := ⟨rfl, rfl⟩
theorem EncodedLength.bitZp (zp8 : Byte) : EncodedLength.Statement (.bitZp zp8) := ⟨rfl, rfl⟩
theorem EncodedLength.bitAbs (addr : Word) : EncodedLength.Statement (.bitAbs addr) := ⟨rfl, rfl⟩
theorem EncodedLength.clc : EncodedLength.Statement (.clc) := ⟨rfl, rfl⟩
theorem EncodedLength.cld : EncodedLength.Statement (.cld) := ⟨rfl, rfl⟩
theorem EncodedLength.cli : EncodedLength.Statement (.cli) := ⟨rfl, rfl⟩
theorem EncodedLength.clv : EncodedLength.Statement (.clv) := ⟨rfl, rfl⟩
theorem EncodedLength.cmpImm (imm8 : Byte) : EncodedLength.Statement (.cmpImm imm8) := ⟨rfl, rfl⟩
theorem EncodedLength.cmpZp (zp8 : Byte) : EncodedLength.Statement (.cmpZp zp8) := ⟨rfl, rfl⟩
theorem EncodedLength.cmpZpX (zp8 : Byte) : EncodedLength.Statement (.cmpZpX zp8) := ⟨rfl, rfl⟩
theorem EncodedLength.cmpAbs (addr : Word) : EncodedLength.Statement (.cmpAbs addr) := ⟨rfl, rfl⟩
theorem EncodedLength.cmpAbsX (addr : Word) : EncodedLength.Statement (.cmpAbsX addr) := ⟨rfl, rfl⟩
theorem EncodedLength.cmpAbsY (addr : Word) : EncodedLength.Statement (.cmpAbsY addr) := ⟨rfl, rfl⟩
theorem EncodedLength.cmpIndX (zp8 : Byte) : EncodedLength.Statement (.cmpIndX zp8) := ⟨rfl, rfl⟩
theorem EncodedLength.cmpIndY (zp8 : Byte) : EncodedLength.Statement (.cmpIndY zp8) := ⟨rfl, rfl⟩
theorem EncodedLength.cpxImm (imm8 : Byte) : EncodedLength.Statement (.cpxImm imm8) := ⟨rfl, rfl⟩
theorem EncodedLength.cpxZp (zp8 : Byte) : EncodedLength.Statement (.cpxZp zp8) := ⟨rfl, rfl⟩
theorem EncodedLength.cpxAbs (addr : Word) : EncodedLength.Statement (.cpxAbs addr) := ⟨rfl, rfl⟩
theorem EncodedLength.cpyImm (imm8 : Byte) : EncodedLength.Statement (.cpyImm imm8) := ⟨rfl, rfl⟩
theorem EncodedLength.cpyZp (zp8 : Byte) : EncodedLength.Statement (.cpyZp zp8) := ⟨rfl, rfl⟩
theorem EncodedLength.cpyAbs (addr : Word) : EncodedLength.Statement (.cpyAbs addr) := ⟨rfl, rfl⟩
theorem EncodedLength.ldaImm (imm8 : Byte) : EncodedLength.Statement (.ldaImm imm8) := ⟨rfl, rfl⟩
theorem EncodedLength.ldaZp (zp8 : Byte) : EncodedLength.Statement (.ldaZp zp8) := ⟨rfl, rfl⟩
theorem EncodedLength.ldaZpX (zp8 : Byte) : EncodedLength.Statement (.ldaZpX zp8) := ⟨rfl, rfl⟩
theorem EncodedLength.ldaAbs (addr : Word) : EncodedLength.Statement (.ldaAbs addr) := ⟨rfl, rfl⟩
theorem EncodedLength.ldaAbsX (addr : Word) : EncodedLength.Statement (.ldaAbsX addr) := ⟨rfl, rfl⟩
theorem EncodedLength.ldaAbsY (addr : Word) : EncodedLength.Statement (.ldaAbsY addr) := ⟨rfl, rfl⟩
theorem EncodedLength.ldaIndX (zp8 : Byte) : EncodedLength.Statement (.ldaIndX zp8) := ⟨rfl, rfl⟩
theorem EncodedLength.ldaIndY (zp8 : Byte) : EncodedLength.Statement (.ldaIndY zp8) := ⟨rfl, rfl⟩
theorem EncodedLength.staZp (zp8 : Byte) : EncodedLength.Statement (.staZp zp8) := ⟨rfl, rfl⟩
theorem EncodedLength.staZpX (zp8 : Byte) : EncodedLength.Statement (.staZpX zp8) := ⟨rfl, rfl⟩
theorem EncodedLength.staAbs (addr : Word) : EncodedLength.Statement (.staAbs addr) := ⟨rfl, rfl⟩
theorem EncodedLength.staAbsX (addr : Word) : EncodedLength.Statement (.staAbsX addr) := ⟨rfl, rfl⟩
theorem EncodedLength.staAbsY (addr : Word) : EncodedLength.Statement (.staAbsY addr) := ⟨rfl, rfl⟩
theorem EncodedLength.staIndX (zp8 : Byte) : EncodedLength.Statement (.staIndX zp8) := ⟨rfl, rfl⟩
theorem EncodedLength.staIndY (zp8 : Byte) : EncodedLength.Statement (.staIndY zp8) := ⟨rfl, rfl⟩
theorem EncodedLength.tax : EncodedLength.Statement (.tax) := ⟨rfl, rfl⟩
theorem EncodedLength.inx : EncodedLength.Statement (.inx) := ⟨rfl, rfl⟩
theorem EncodedLength.brk : EncodedLength.Statement (.brk) := ⟨rfl, rfl⟩

end Sys2Proof.Laws
end

