-- ==== Sys2Proof/Laws/Run.lean ====
section
/-! SUPPORT. The loop of a run, one unfolding of it per case (spec/42_dispatch_fsm.md R136 to R138). -/

namespace Sys2Proof.Machine

/-- Where no run is in progress no step is taken, whatever the budget. -/
theorem runFor_of_not_running (budget : Nat) {s : State} (h : s.fsm ≠ .running) : runFor budget s = outcomeOf s := by
  cases budget with
  | zero => rfl
  | succ k => unfold runFor; cases hf : s.fsm <;> simp_all

/-- While a run is in progress the loop takes the step and goes on from the state it gives. -/
theorem runFor_succ_of_step (budget : Nat) {s t : State} (h : s.fsm = .running) (ht : step s = .next t) :
    runFor (budget + 1) s = runFor budget t := by
  simp [runFor, h, ht]

end Sys2Proof.Machine
end

