-- ==== Sys2Proof/Laws/Step.lean ====
section
/-! SUPPORT. What a step and a command can answer (spec/42_dispatch_fsm.md R132, spec/70_reset_and_hazards.md
R227). -/

namespace Sys2Proof.Machine

/-- Everything a step can do: with `fsm` Running it runs the fetched instruction or takes the unknown-opcode stop,
and otherwise it is not enabled. -/
theorem step_cases (s : State) :
    (s.fsm = .running ∧ ∃ i, fetchInstr s = .ok i ∧ step s = exec i (afterOpcode s)) ∨
    (s.fsm = .running ∧ rowOf (memRead s s.pc) = none ∧ step s = .next (unknownOpcodeStop s)) ∨
    (s.fsm ≠ .running ∧ step s = .fault .notRunning) := by
  unfold step stepOf
  cases hf : s.fsm
  case running =>
    cases hi : fetchInstr s with
    | ok i => exact .inl ⟨rfl, i, rfl, by simp [runningStep, hi]⟩
    | error e => exact .inr (.inl ⟨rfl, (decodeInstr_error_iff.1 hi).1, by simp [runningStep, hi]⟩)
  all_goals exact .inr (.inr ⟨by simp, rfl⟩)

/-- A command that is answered by a next state was accepted and has its effect. -/
theorem command_next {c : Command} {s t : State} (h : command c s = .next t) :
    commandRefusal c s = none ∧ t = commandEffect c s := by
  unfold command at h
  cases hr : commandRefusal c s with
  | some r => simp [hr] at h
  | none => simp [hr] at h; exact ⟨rfl, h.symm⟩

/-- Every command but `PowerOn` is accepted only while no run is in progress. -/
theorem not_running_of_accepted {c : Command} {s : State} (hc : c ≠ .powerOn) (h : commandRefusal c s = none) :
    s.fsm ≠ .running := by
  intro hf
  cases c <;> simp_all [commandRefusal]

end Sys2Proof.Machine
end

