-- ==== Sys2Proof/Tests/Slice0.lean ====
section
/-! SUPPORT. The model's own tests. Expected results come from the spec: the opcode map of spec/30_encoding.md R83,
the vectors of spec/95_test_vectors.md (cited by section and number), the worked examples of the rules. Below them, for
each statement with hypotheses, a witness that meets them. -/

namespace Sys2Proof.Tests

open Sys2Proof.Machine

/-! ### Ill-formed terms that the checks refuse -/

/-- R191: "There is no Immediate form." -/
theorem test_illformed_sta_immediate : pairWellFormed .sta .immediate = false := by decide

/-- R89: no row uses ZeroPageY. -/
theorem test_illformed_lda_zeroPageY : pairWellFormed .lda .zeroPageY = false := by decide

/-- R83: a branch has no memory operand. -/
theorem test_illformed_bne_absolute : pairWellFormed .bne .absolute = false := by decide

/-- R110: the sentinel has no address. -/
theorem test_illformed_sentinel : Mode.resolvable .none = false := by decide

/-- R221: 0x8001 bytes are too many. -/
theorem test_illformed_program : programWellFormed (List.replicate 0x8001 0xEA) = false := by
  simp only [programWellFormed, List.length_replicate]; decide

/-- R221: 0x8000 bytes are not. -/
theorem test_wellformed_program : programWellFormed (List.replicate 0x8000 0xEA) = true := by
  simp only [programWellFormed, List.length_replicate]; decide

/-- 20_memory.md R52 and log 10: a listed zero, a repeated address and an address past 0xFFFF are no canonical memory. -/
theorem test_illformed_memories :
    Memory.wf [(5, 0)] = false ∧ Memory.wf [(5, 1), (5, 2)] = false ∧ Memory.wf [(0x10000, 1)] = false ∧
    Memory.wf [(5, 1), (0xFFFF, 2)] = true := by decide

/-! ### Decoding: every row, its bytes written out from R83 (operand 12, or 34 12 for the address 0x1234) -/

/-- The instruction that bytes decode to, with nothing left over. -/
def decodesTo (bytes : List Byte) (i : Instr) : Bool :=
  match decode bytes with
  | .ok (j, []) => j = i
  | _ => false

theorem test_decode_adc :
    decodesTo [0x69, 0x12] (.adcImm 0x12) = true ∧
    decodesTo [0x65, 0x12] (.adcZp 0x12) = true ∧
    decodesTo [0x75, 0x12] (.adcZpX 0x12) = true ∧
    decodesTo [0x6D, 0x34, 0x12] (.adcAbs 0x1234) = true ∧
    decodesTo [0x7D, 0x34, 0x12] (.adcAbsX 0x1234) = true ∧
    decodesTo [0x79, 0x34, 0x12] (.adcAbsY 0x1234) = true ∧
    decodesTo [0x61, 0x12] (.adcIndX 0x12) = true ∧
    decodesTo [0x71, 0x12] (.adcIndY 0x12) = true := by decide

theorem test_decode_and :
    decodesTo [0x29, 0x12] (.andImm 0x12) = true ∧
    decodesTo [0x25, 0x12] (.andZp 0x12) = true ∧
    decodesTo [0x35, 0x12] (.andZpX 0x12) = true ∧
    decodesTo [0x2D, 0x34, 0x12] (.andAbs 0x1234) = true ∧
    decodesTo [0x3D, 0x34, 0x12] (.andAbsX 0x1234) = true ∧
    decodesTo [0x39, 0x34, 0x12] (.andAbsY 0x1234) = true ∧
    decodesTo [0x21, 0x12] (.andIndX 0x12) = true ∧
    decodesTo [0x31, 0x12] (.andIndY 0x12) = true := by decide

theorem test_decode_asl :
    decodesTo [0x0A] .aslAcc = true ∧
    decodesTo [0x06, 0x12] (.aslZp 0x12) = true ∧
    decodesTo [0x16, 0x12] (.aslZpX 0x12) = true ∧
    decodesTo [0x0E, 0x34, 0x12] (.aslAbs 0x1234) = true ∧
    decodesTo [0x1E, 0x34, 0x12] (.aslAbsX 0x1234) = true := by decide

theorem test_decode_bcc :
    decodesTo [0x90, 0x12] (.bcc 0x12) = true := by decide

theorem test_decode_bcs :
    decodesTo [0xB0, 0x12] (.bcs 0x12) = true := by decide

theorem test_decode_beq :
    decodesTo [0xF0, 0x12] (.beq 0x12) = true := by decide

theorem test_decode_bmi :
    decodesTo [0x30, 0x12] (.bmi 0x12) = true := by decide

theorem test_decode_bne :
    decodesTo [0xD0, 0x12] (.bne 0x12) = true := by decide

theorem test_decode_bpl :
    decodesTo [0x10, 0x12] (.bpl 0x12) = true := by decide

theorem test_decode_bvc :
    decodesTo [0x50, 0x12] (.bvc 0x12) = true := by decide

theorem test_decode_bvs :
    decodesTo [0x70, 0x12] (.bvs 0x12) = true := by decide

theorem test_decode_bit :
    decodesTo [0x24, 0x12] (.bitZp 0x12) = true ∧
    decodesTo [0x2C, 0x34, 0x12] (.bitAbs 0x1234) = true := by decide

theorem test_decode_clc :
    decodesTo [0x18] .clc = true := by decide

theorem test_decode_cld :
    decodesTo [0xD8] .cld = true := by decide

theorem test_decode_cli :
    decodesTo [0x58] .cli = true := by decide

theorem test_decode_clv :
    decodesTo [0xB8] .clv = true := by decide

theorem test_decode_cmp :
    decodesTo [0xC9, 0x12] (.cmpImm 0x12) = true ∧
    decodesTo [0xC5, 0x12] (.cmpZp 0x12) = true ∧
    decodesTo [0xD5, 0x12] (.cmpZpX 0x12) = true ∧
    decodesTo [0xCD, 0x34, 0x12] (.cmpAbs 0x1234) = true ∧
    decodesTo [0xDD, 0x34, 0x12] (.cmpAbsX 0x1234) = true ∧
    decodesTo [0xD9, 0x34, 0x12] (.cmpAbsY 0x1234) = true ∧
    decodesTo [0xC1, 0x12] (.cmpIndX 0x12) = true ∧
    decodesTo [0xD1, 0x12] (.cmpIndY 0x12) = true := by decide

theorem test_decode_cpx :
    decodesTo [0xE0, 0x12] (.cpxImm 0x12) = true ∧
    decodesTo [0xE4, 0x12] (.cpxZp 0x12) = true ∧
    decodesTo [0xEC, 0x34, 0x12] (.cpxAbs 0x1234) = true := by decide

theorem test_decode_cpy :
    decodesTo [0xC0, 0x12] (.cpyImm 0x12) = true ∧
    decodesTo [0xC4, 0x12] (.cpyZp 0x12) = true ∧
    decodesTo [0xCC, 0x34, 0x12] (.cpyAbs 0x1234) = true := by decide

theorem test_decode_lda :
    decodesTo [0xA9, 0x12] (.ldaImm 0x12) = true ∧
    decodesTo [0xA5, 0x12] (.ldaZp 0x12) = true ∧
    decodesTo [0xB5, 0x12] (.ldaZpX 0x12) = true ∧
    decodesTo [0xAD, 0x34, 0x12] (.ldaAbs 0x1234) = true ∧
    decodesTo [0xBD, 0x34, 0x12] (.ldaAbsX 0x1234) = true ∧
    decodesTo [0xB9, 0x34, 0x12] (.ldaAbsY 0x1234) = true ∧
    decodesTo [0xA1, 0x12] (.ldaIndX 0x12) = true ∧
    decodesTo [0xB1, 0x12] (.ldaIndY 0x12) = true := by decide

theorem test_decode_sta :
    decodesTo [0x85, 0x12] (.staZp 0x12) = true ∧
    decodesTo [0x95, 0x12] (.staZpX 0x12) = true ∧
    decodesTo [0x8D, 0x34, 0x12] (.staAbs 0x1234) = true ∧
    decodesTo [0x9D, 0x34, 0x12] (.staAbsX 0x1234) = true ∧
    decodesTo [0x99, 0x34, 0x12] (.staAbsY 0x1234) = true ∧
    decodesTo [0x81, 0x12] (.staIndX 0x12) = true ∧
    decodesTo [0x91, 0x12] (.staIndY 0x12) = true := by decide

theorem test_decode_tax :
    decodesTo [0xAA] .tax = true := by decide

theorem test_decode_inx :
    decodesTo [0xE8] .inx = true := by decide

theorem test_decode_brk :
    decodesTo [0x00] .brk = true := by decide

/-- R84, R85: 0xFF is no opcode; nor is 6502 NOP (0xEA), whatever follows. -/
theorem test_decode_unknown :
    decodeInstr 0xFF 0 0 = .error (.unknownOpcode 0xFF) ∧ decodeInstr 0xEA 1 2 = .error (.unknownOpcode 0xEA) :=
  ⟨rfl, rfl⟩

/-- An instruction cut off before its operand is refused by name. -/
theorem test_decode_truncated : decode [0xAD, 0x34] = .error (.truncated 0xAD) := rfl

/-- R83: 67 rows, no two with the same opcode byte, and 189 bytes without one. -/
theorem test_opcode_rows :
    opcodeRows.length = 67 ∧ (opcodeRows.map Row.opcode).Nodup ∧
    ((List.range 256).filter fun n => (rowOf (BitVec.ofNat 8 n)).isNone).length = 189 := by
  refine ⟨rfl, by decide, by decide +kernel⟩

/-- R84 and the host's numbering: the word 0xC0A9 of 16 bits is LDA with the immediate 0xC0; 8 bits leave operand 0. -/
theorem test_decode_table_word :
    decodeTableWord 16 0xC0A9 = some (.ldaImm 0xC0) ∧ decodeTableWord 8 0xA9 = some (.ldaImm 0) ∧
    decodeTableWord 24 0x12340E = some (.aslAbs 0x1234) ∧ decodeTableWord 8 0xFF = none := by decide

/-! ### The resolver (95_test_vectors.md section 2.1) -/

/-- A running state with bytes at an address and other bytes in memory. -/
def start (pc : Word) (bytes : List Byte) (a x y p : Byte) (cells : List (Word × Byte)) : State :=
  { State.reset with
    a := a, x := x, y := y, p := p, pc := pc, fsm := .running
    mem := Memory.writeBytes (cells.foldl (fun (m : Memory) c => Memory.write m c.1.toNat c.2) []) pc bytes }

/-- Vectors 2, 7, 10, 12. -/
theorem test_resolve_zero_page_and_absolute :
    resolve .immediate (start 0x0000 [0x55] 0 0 0 0x24 []) = some 0x0000 ∧
    resolve .zeroPageX (start 0x8001 [0xF0] 0 0x20 0 0x24 []) = some 0x0010 ∧
    resolve .zeroPageY (start 0x8001 [0xFF] 0 0 1 0x24 []) = some 0x0000 ∧
    resolve .absolute (start 0xFFFF [0x34] 0 0 0 0x24 [(0x0000, 0x12)]) = some 0x1234 := by decide

/-- Vectors 13, 15, 17. -/
theorem test_resolve_indexed :
    resolve .absoluteX (start 0x8000 [0xEF, 0xBE] 0 1 0 0x24 []) = some 0xBEF0 ∧
    resolve .absoluteX (start 0x8001 [0xFF, 0xFF] 0 2 0 0x24 []) = some 0x0001 ∧
    resolve .absoluteY (start 0x8001 [0x01, 0xFF] 0 0 0xFF 0x24 []) = some 0x0000 := by decide

/-- Vectors 18, 19, 24, 25 and vector 0 (the sentinel). -/
theorem test_resolve_indirect :
    resolve .indirectX (start 0x8000 [0xDE] 0 1 0 0x24 [(0xDF, 0xEF), (0xE0, 0xBE)]) = some 0xBEEF ∧
    resolve .indirectX (start 0x8001 [0xFF] 0 0 0 0x24 [(0xFF, 0x34), (0x00, 0x12), (0x100, 0x99)]) = some 0x1234 ∧
    resolve .indirectY (start 0x8001 [0xFF] 0 0 1 0x24 [(0xFF, 0xFF), (0x00, 0x12), (0x100, 0x99)]) = some 0x1300 ∧
    resolve .indirectY (start 0x8001 [0x20] 0 0 1 0x24 [(0x20, 0xFF), (0x21, 0xFF)]) = some 0x0000 ∧
    resolve .none (start 0x8001 [0x20] 0 0 1 0x24 []) = none := by decide

/-! ### One step each (95_test_vectors.md sections 2.2 to 2.9) -/

/-- A, X, P, PC and `fsm` after a step. -/
def shown (s : State) : Option (Byte × Byte × Byte × Word × Fsm) :=
  match step s with
  | .next t => some (t.a, t.x, t.p, t.pc, t.fsm)
  | .fault _ => none
  | .refused _ => none

/-- The byte at an address after a step. -/
def byteAfter (s : State) (addr : Word) : Option Byte :=
  match step s with
  | .next t => some (memRead t addr)
  | .fault _ => none
  | .refused _ => none

/-- Section 2.2, vector 5: `LDA $F0,X`. -/
theorem test_lda_zero_page_x_wraps :
    shown (start 0x8000 [0xB5, 0xF0] 0x00 0x20 0x00 0x24 [(0x0010, 0x42), (0x0110, 0x99)]) =
      some (0x42, 0x20, 0x24, 0x8002, .running) := by decide

/-- Section 2.2, vector 9: `LDA ($DE,X)`. -/
theorem test_lda_indirect_x :
    shown (start 0x8000 [0xA1, 0xDE] 0x00 0x01 0x00 0x24 [(0x00DF, 0xEF), (0x00E0, 0xBE), (0xBEEF, 0x77)]) =
      some (0x77, 0x01, 0x24, 0x8002, .running) := by decide

/-- Section 2.2, vector 14: `STA $10`. -/
theorem test_sta_leaves_flags :
    shown (start 0x8000 [0x85, 0x10] 0x00 0x00 0x00 0xA5 [(0x0010, 0xFF)]) =
      some (0x00, 0x00, 0xA5, 0x8002, .running) ∧
    byteAfter (start 0x8000 [0x85, 0x10] 0x00 0x00 0x00 0xA5 [(0x0010, 0xFF)]) 0x0010 = some 0x00 := by decide

/-- Section 2.2, vector 17: `STA $FFFF,X`. -/
theorem test_sta_absolute_x_wraps :
    shown (start 0x8000 [0x9D, 0xFF, 0xFF] 0x22 0x02 0x00 0x24 []) =
      some (0x22, 0x02, 0x24, 0x8003, .running) ∧
    byteAfter (start 0x8000 [0x9D, 0xFF, 0xFF] 0x22 0x02 0x00 0x24 []) 0x0001 = some 0x22 := by decide

/-- Section 2.3, vector 4: `ADC #$80`. -/
theorem test_adc_overflow_and_carry :
    shown (start 0x8000 [0x69, 0x80] 0x80 0x00 0x00 0x24 []) =
      some (0x00, 0x00, 0x67, 0x8002, .running) := by decide

/-- Section 2.3, vector 5: `ADC #$FF`. -/
theorem test_adc_largest_sum :
    shown (start 0x8000 [0x69, 0xFF] 0xFF 0x00 0x00 0x25 []) =
      some (0xFF, 0x00, 0xA5, 0x8002, .running) := by decide

/-- Section 2.3, vector 11: `CMP #$03`. -/
theorem test_cmp_less :
    shown (start 0x8000 [0xC9, 0x03] 0x02 0x00 0x00 0x24 []) =
      some (0x02, 0x00, 0xA4, 0x8002, .running) := by decide

/-- Section 2.3, vector 14: `CMP #$00`. -/
theorem test_cmp_leaves_overflow :
    shown (start 0x8000 [0xC9, 0x00] 0x00 0x00 0x00 0x64 []) =
      some (0x00, 0x00, 0x67, 0x8002, .running) := by decide

/-- Section 2.3, vector 17: `CPX #$05`. -/
theorem test_cpx_less :
    shown (start 0x8000 [0xE0, 0x05] 0x00 0x04 0x00 0x24 []) =
      some (0x00, 0x04, 0xA4, 0x8002, .running) := by decide

/-- Section 2.3, vector 22: `CPY $10`. -/
theorem test_cpy_zero_page :
    shown (start 0x8000 [0xC4, 0x10] 0x00 0x00 0x90 0x24 [(0x0010, 0x10)]) =
      some (0x00, 0x00, 0xA5, 0x8002, .running) := by decide

/-- Section 2.4, vector 3: `AND #$F0`. -/
theorem test_and_zero :
    shown (start 0x8000 [0x29, 0xF0] 0x0F 0x00 0x00 0x24 []) =
      some (0x00, 0x00, 0x26, 0x8002, .running) := by decide

/-- Section 2.4, vector 5: `AND #$FF`. -/
theorem test_and_leaves_carry_and_overflow :
    shown (start 0x8000 [0x29, 0xFF] 0x7F 0x00 0x00 0x65 []) =
      some (0x7F, 0x00, 0x65, 0x8002, .running) := by decide

/-- Section 2.4, vector 12: `ASL A`. -/
theorem test_asl_a_ignores_old_carry :
    shown (start 0x8000 [0x0A] 0x00 0x00 0x00 0x25 []) =
      some (0x00, 0x00, 0x26, 0x8001, .running) := by decide

/-- Section 2.4, vector 11: `ASL A`. -/
theorem test_asl_a_carry_out :
    shown (start 0x8000 [0x0A] 0xFF 0x00 0x00 0x24 []) =
      some (0xFE, 0x00, 0xA5, 0x8001, .running) := by decide

/-- Section 2.4, vector 15: `ASL $FF,X`. -/
theorem test_asl_zero_page_x_wraps :
    shown (start 0x8000 [0x16, 0xFF] 0x00 0x02 0x00 0x24 [(0x0001, 0x40)]) =
      some (0x00, 0x02, 0xA4, 0x8002, .running) ∧
    byteAfter (start 0x8000 [0x16, 0xFF] 0x00 0x02 0x00 0x24 [(0x0001, 0x40)]) 0x0001 = some 0x80 := by decide

/-- Section 2.4, vector 16: `ASL $1234`. -/
theorem test_asl_absolute :
    shown (start 0x8000 [0x0E, 0x34, 0x12] 0x55 0x00 0x00 0x24 [(0x1234, 0x81)]) =
      some (0x55, 0x00, 0x25, 0x8003, .running) ∧
    byteAfter (start 0x8000 [0x0E, 0x34, 0x12] 0x55 0x00 0x00 0x24 [(0x1234, 0x81)]) 0x1234 = some 0x02 := by decide

/-- Section 2.5, vector 5: `BIT $10`. -/
theorem test_bit_negative_with_zero :
    shown (start 0x8000 [0x24, 0x10] 0x00 0x00 0x00 0x24 [(0x0010, 0x80)]) =
      some (0x00, 0x00, 0xA6, 0x8002, .running) := by decide

/-- Section 2.5, vector 4: `BIT $10`. -/
theorem test_bit_leaves_carry :
    shown (start 0x8000 [0x24, 0x10] 0x01 0x00 0x00 0xE5 [(0x0010, 0x01)]) =
      some (0x01, 0x00, 0x25, 0x8002, .running) := by decide

/-- Section 2.6, vector 1: `BEQ $800C`. -/
theorem test_beq_taken :
    shown (start 0x8000 [0xF0, 0x0A] 0x00 0x00 0x00 0x26 []) =
      some (0x00, 0x00, 0x26, 0x800C, .running) := by decide

/-- Section 2.6, vector 2: `BEQ $800C`. -/
theorem test_beq_not_taken :
    shown (start 0x8000 [0xF0, 0x0A] 0x00 0x00 0x00 0x24 []) =
      some (0x00, 0x00, 0x24, 0x8002, .running) := by decide

/-- Section 2.6, vector 3: `BNE $7FFB`. -/
theorem test_bne_backward :
    shown (start 0x8000 [0xD0, 0xF9] 0x00 0x00 0x00 0x24 []) =
      some (0x00, 0x00, 0x24, 0x7FFB, .running) := by decide

/-- Section 2.6, vector 5: `BCC $8004`. -/
theorem test_bcc_taken :
    shown (start 0x8000 [0x90, 0x02] 0x00 0x00 0x00 0x24 []) =
      some (0x00, 0x00, 0x24, 0x8004, .running) := by decide

/-- Section 2.6, vector 6: `BCC $8004`. -/
theorem test_bcc_not_taken :
    shown (start 0x8000 [0x90, 0x02] 0x00 0x00 0x00 0x25 []) =
      some (0x00, 0x00, 0x25, 0x8002, .running) := by decide

/-- Section 2.6, vector 7: `BCS $8004`. -/
theorem test_bcs_taken :
    shown (start 0x8000 [0xB0, 0x02] 0x00 0x00 0x00 0x25 []) =
      some (0x00, 0x00, 0x25, 0x8004, .running) := by decide

/-- Section 2.6, vector 9: `BMI $8081`. -/
theorem test_bmi_farthest :
    shown (start 0x8000 [0x30, 0x7F] 0x00 0x00 0x00 0xA4 []) =
      some (0x00, 0x00, 0xA4, 0x8081, .running) := by decide

/-- Section 2.6, vector 12: `BPL $7F82`. -/
theorem test_bpl_not_taken :
    shown (start 0x8000 [0x10, 0x80] 0x00 0x00 0x00 0xA4 []) =
      some (0x00, 0x00, 0xA4, 0x8002, .running) := by decide

/-- Section 2.6, vector 14: `BVC $8007`. -/
theorem test_bvc_not_taken :
    shown (start 0x8000 [0x50, 0x05] 0x00 0x00 0x00 0x64 []) =
      some (0x00, 0x00, 0x64, 0x8002, .running) := by decide

/-- Section 2.6, vector 15: `BVS $8004`. -/
theorem test_bvs_taken :
    shown (start 0x8000 [0x70, 0x02] 0x00 0x00 0x00 0x64 []) =
      some (0x00, 0x00, 0x64, 0x8004, .running) := by decide

/-- Section 2.6b, vector 1: `BNE $0010`. -/
theorem test_bne_wraps_upward :
    shown (start 0xFFFE [0xD0, 0x10] 0x00 0x00 0x00 0x24 []) =
      some (0x00, 0x00, 0x24, 0x0010, .running) := by decide

/-- Section 2.6c, vector 1: `BPL $FF82`. -/
theorem test_bpl_wraps_downward :
    shown (start 0x0000 [0x10, 0x80] 0x00 0x00 0x00 0x24 []) =
      some (0x00, 0x00, 0x24, 0xFF82, .running) := by decide

/-- Section 2.7, vector 1: `CLC`. -/
theorem test_clc :
    shown (start 0x8000 [0x18] 0x00 0x00 0x00 0x25 []) =
      some (0x00, 0x00, 0x24, 0x8001, .running) := by decide

/-- Section 2.7, vector 3: `CLD`. -/
theorem test_cld :
    shown (start 0x8000 [0xD8] 0x00 0x00 0x00 0x2C []) =
      some (0x00, 0x00, 0x24, 0x8001, .running) := by decide

/-- Section 2.7, vector 5: `CLI`. -/
theorem test_cli :
    shown (start 0x8000 [0x58] 0x00 0x00 0x00 0x24 []) =
      some (0x00, 0x00, 0x20, 0x8001, .running) := by decide

/-- Section 2.7, vector 7: `CLV`. -/
theorem test_clv :
    shown (start 0x8000 [0xB8] 0x00 0x00 0x00 0xE7 []) =
      some (0x00, 0x00, 0xA7, 0x8001, .running) := by decide

/-- Section 2.8, vector 3: `TAX`. -/
theorem test_tax_rewrites_flags :
    shown (start 0x8000 [0xAA] 0x7F 0x7F 0x00 0xA6 []) =
      some (0x7F, 0x7F, 0x24, 0x8001, .running) := by decide

/-- Section 2.8, vector 5: `INX`. -/
theorem test_inx_wraps :
    shown (start 0x8000 [0xE8] 0x00 0xFF 0x00 0xA4 []) =
      some (0x00, 0x00, 0x26, 0x8001, .running) := by decide

/-- Section 2.9, vector 1: `BRK`. -/
theorem test_brk_only_halts :
    shown (start 0x8000 [0x00] 0x12 0x34 0x00 0xE7 []) =
      some (0x12, 0x34, 0xE7, 0x8001, .halted) := by decide

/-- Section 2.9b, vector 1: `BRK`. -/
theorem test_brk_wraps :
    shown (start 0xFFFF [0x00] 0x00 0x00 0x00 0x24 []) =
      some (0x00, 0x00, 0x24, 0x0000, .halted) := by decide

/-- Section 2.9, vector 3: `(unknown 0xEA)`. -/
theorem test_nop_is_unknown :
    shown (start 0x8000 [0xEA] 0x00 0x00 0x00 0x24 []) =
      some (0x00, 0x00, 0x24, 0x8001, .faulted) := by decide

/-- Section 2.9, vector 4: `(unknown 0x4C)`. -/
theorem test_jmp_is_unknown :
    shown (start 0x8000 [0x4C, 0x00, 0x80] 0x00 0x00 0x00 0x24 []) =
      some (0x00, 0x00, 0x24, 0x8001, .faulted) := by decide

/-- Section 2.5b, vector 7: with `BIT_WRITES_A` true A becomes 0x30; section 2.5, vector 7: with false it stays. -/
theorem test_bit_variants :
    (bitHandler true (.absolute 0x1234) (start 0x8001 [0x34, 0x12] 0xF0 0 0 0x24 [(0x1234, 0x3C)])).a = 0x30 ∧
    (bitHandler false (.absolute 0x1234) (start 0x8001 [0x34, 0x12] 0xF0 0 0 0x24 [(0x1234, 0x3C)])).a = 0xF0 := by
  decide

/-- R135 and section 2.9: the error latch of an unknown byte. -/
theorem test_unknown_error :
    (match step (start 0x8000 [0xFF] 0 0 0 0x24 []) with | .next t => t.err | _ => none) =
      some (.unknownOpcode 0xFF 0x8000) := by decide

/-- Log 2: no step is enabled after reset until a run is commanded. -/
theorem test_no_step_when_idle : step State.reset = .fault .notRunning := rfl

/-- Log 3: the instruction placed after reset is the next one to run. -/
theorem test_placed_word : shown (State.reset.withFetchWord 16 0xC0A9) = some (0xC0, 0, 0xA4, 0x0002, .running) := by
  decide

/-! ### Commands, runs, accesses, assembler text -/

/-- The state after a command, if it was accepted. -/
def commanded (c : Command) (s : State) : Option State :=
  match command c s with
  | .next t => some t
  | .fault _ => none
  | .refused _ => none

/-- Section 2.10, vectors 2 and 1: `Reset` after `PowerOn`; both are `State.reset`. -/
theorem test_reset_after_power_on :
    commanded .powerOn (start 0x8000 [0xFF] 1 2 3 4 []) = some State.reset ∧
    commanded .reset powerOnState = some State.reset := by decide

/-- Section 2.10, vector 5. -/
theorem test_load :
    (commanded (.load [0xA9, 0xC0]) powerOnState).map (fun t => (t.mem, t.pc)) =
      some ([(0x8000, 0xA9), (0x8001, 0xC0), (0xFFFD, 0x80)], 0x0000) := by decide

/-- R222: `Reset` keeps Y and reads the vector, low byte first. -/
theorem test_reset_reads_vector :
    (commanded .reset { start 0 [] 1 2 3 0xFF [(0xFFFC, 0x34), (0xFFFD, 0x12)] with fsm := .halted }).map
      (fun t => (t.pc, t.x, t.y, t.p)) = some (0x1234, 0, 3, 0x24) := by decide

/-- R227: nothing but `PowerOn` is accepted while running. -/
theorem test_commands_while_running :
    commanded .run (start 0x8000 [0xFF] 0 0 0 0x24 []) = none ∧
    commanded .powerOn (start 0x8000 [0xFF] 0 0 0 0x24 []) = some powerOnState := by decide

/-- R137, program P7: `D0 FE` with Z clear does not end; a budget of one step is exhausted at 0x8000. -/
theorem test_budget_exhausted :
    runFor 1 (start 0x8000 [0xD0, 0xFE] 0 0 0 0x24 []) = .exhausted (start 0x8000 [0xD0, 0xFE] 0 0 0 0x24 []) := by
  decide

/-- Section 2.10, vector 3: `Run` on zero-filled memory halts with PC = 0x0001. -/
theorem test_run_from_power_on :
    ((commanded .run powerOnState).map fun s => runFor 5 s) = some (.halted { State.reset with pc := 1, fsm := .halted }) := by
  decide

/-- R139: the accesses of `ASL $1234` at 0x800C and of `STA ($20),Y` at 0x800A (program P3). -/
theorem test_accesses :
    stepAccesses (start 0x800C [0x0E, 0x34, 0x12] 0 0 0 0x24 [(0x1234, 0x81)]) =
      [.read 0x800C, .read 0x800D, .read 0x800E, .read 0x1234, .write 0x1234 0x02] ∧
    stepAccesses (start 0x800A [0x91, 0x20] 0x81 0 0 0x24 [(0x20, 0x34), (0x21, 0x12)]) =
      [.read 0x800A, .read 0x800B, .read 0x0020, .read 0x0021, .write 0x1234 0x81] := by decide

/-- R90 and program P2: assembler text. -/
theorem test_assembly :
    assemblyText 0 (.ldaIndY 0x20) = "LDA ($20),Y".toList ∧ assemblyText 0 (.ldaImm 0xC0) = "LDA #$C0".toList ∧
    assemblyText 0x8009 (.bne 0xF9) = "BNE $8004".toList ∧ assemblyText 0 .aslAcc = "ASL A".toList := by decide

/-! ### Witnesses: a concrete state and operands that meet the hypotheses of each statement -/

/-- A running state whose next instruction is `ADC #$01` with A = 0x7F (source example S2). -/
def adcState : State := start 0x8000 [0x69, 0x01] 0x7F 0 0 0x24 []

/-- The rows are any list equal to the map; 0xFF is a byte outside it. -/
theorem witness_OpcodeMapIsExact : (0xFF : Byte) ∉ opcodeRows.map Row.opcode := by decide

theorem witness_DecodeOfEncodeIsIdentity : Instr.wellFormed (.staAbsY 0xFFFF) = true := by decide

theorem witness_EncodeOfDecodeIsIdentity : decode [0x9D, 0xFF, 0x00, 0x42] = .ok (.staAbsX 0x00FF, [0x42]) := rfl

theorem witness_OpcodeAloneDecidesTheInstruction : decodeInstr 0x61 0xFF 0x00 = .ok (.adcIndX 0xFF) := rfl

/-- Pointer 0xFF: the second pointer byte wraps to 0x0000. -/
theorem witness_IndirectModesResolve :
    (255 : Nat) = ((memRead (start 0x8001 [0xFF] 0 0 0 0x24 []) 0x8001).toNat + (0 : Byte).toNat) % 256 ∧
    (255 : Nat) = (memRead (start 0x8001 [0xFF] 0 0 0 0x24 []) 0x8001).toNat := by decide

theorem witness_FetchedOperandIsTheResolvedByte : fetchInstr adcState = .ok (.adcImm 0x01) := rfl

theorem witness_AdcResultAndFrame : ∀ i ∈ [.adcImm 0xFF, .adcZp 0xFF, .adcZpX 0xFF, .adcAbs 0xFFFF, .adcAbsX 0xFFFF, .adcAbsY 0xFFFF, .adcIndX 0xFF, .adcIndY 0xFF], Instr.mnemonic i = .adc := by decide

theorem witness_AdcOverflowIsSignedOverflow : Instr.mnemonic (.adcImm 0x80) = .adc := by decide

/-- `rows` is the list of the mnemonic, `r` its register. -/
theorem witness_CompareResultAndFrame :
    (∀ i ∈ [.cmpImm 0xFF, .cmpZp 0xFF, .cmpZpX 0xFF, .cmpAbs 0xFFFF, .cmpAbsX 0xFFFF, .cmpAbsY 0xFFFF, .cmpIndX 0xFF, .cmpIndY 0xFF], Instr.mnemonic i = .cmp) ∧
    (∀ i ∈ [.cpxImm 0xFF, .cpxZp 0xFF, .cpxAbs 0xFFFF], Instr.mnemonic i = .cpx) ∧
    (∀ i ∈ [.cpyImm 0xFF, .cpyZp 0xFF, .cpyAbs 0xFFFF], Instr.mnemonic i = .cpy) := by decide

theorem witness_AndResultAndFrame : ∀ i ∈ [.andImm 0xFF, .andZp 0xFF, .andZpX 0xFF, .andAbs 0xFFFF, .andAbsX 0xFFFF, .andAbsY 0xFFFF, .andIndX 0xFF, .andIndY 0xFF], Instr.mnemonic i = .and := by decide

theorem witness_AslMemoryResultAndFrame :
    State.reset.mem.wf = true ∧ ∀ i ∈ [.aslZp 0xFF, .aslZpX 0xFF, .aslAbs 0xFFFF, .aslAbsX 0xFFFF],
      Instr.mnemonic i = .asl ∧ i ≠ .aslAcc := by decide

theorem witness_BitResultAndFrame : ∀ i ∈ [.bitZp 0xFF, .bitAbs 0xFFFF], Instr.mnemonic i = .bit := by decide

theorem witness_BitVariantsDifferInAccumulatorOnly :
    operandValue (.zeroPage 0x10) (start 0x8001 [0x10] 0x0F 0 0 0x24 [(0x10, 0xC0)]) = some 0xC0 := by decide

theorem witness_BranchResultAndFrame :
    State.reset.flag .carry = false ∧ State.reset.flag .zero = false ∧ State.reset.flag .negative = false ∧
    State.reset.flag .overflow = false ∧ (start 0 [] 0 0 0 0xC3 []).flag .carry = true ∧
    (start 0 [] 0 0 0 0xC3 []).flag .zero = true ∧ (start 0 [] 0 0 0 0xC3 []).flag .negative = true ∧
    (start 0 [] 0 0 0 0xC3 []).flag .overflow = true := by decide

theorem witness_LdaResultAndFrame : ∀ i ∈ [.ldaImm 0xFF, .ldaZp 0xFF, .ldaZpX 0xFF, .ldaAbs 0xFFFF, .ldaAbsX 0xFFFF, .ldaAbsY 0xFFFF, .ldaIndX 0xFF, .ldaIndY 0xFF], Instr.mnemonic i = .lda := by decide

theorem witness_StaResultAndFrame :
    State.reset.mem.wf = true ∧ ∀ i ∈ [.staZp 0xFF, .staZpX 0xFF, .staAbs 0xFFFF, .staAbsX 0xFFFF, .staAbsY 0xFFFF, .staIndX 0xFF, .staIndY 0xFF], Instr.mnemonic i = .sta := by decide

theorem witness_HaltOpcodeOnlyHalts :
    (start 0xFFFF [0x00] 0 0 0 0x24 []).fsm = .running ∧ memRead (start 0xFFFF [0x00] 0 0 0 0x24 []) 0xFFFF = 0 := by decide

theorem witness_StepRunsTheDecodedInstruction :
    adcState.fsm = .running ∧
    decodeInstr (memRead adcState adcState.pc) (memRead adcState (adcState.pc + 1)) (memRead adcState (adcState.pc + 2)) =
      .ok (.adcImm 0x01) := ⟨rfl, rfl⟩

theorem witness_UnknownOpcodeStopsTheRun :
    (start 0x8000 [0xFF] 0 0 0 0x24 []).fsm = .running ∧
    decodeOpcode (memRead (start 0x8000 [0xFF] 0 0 0 0x24 []) 0x8000) = none := by decide

theorem witness_StepEnabledExactlyWhileRunning : State.reset.fsm ≠ .running ∧ adcState.fsm = .running := by decide

theorem witness_StepAdvancesPcByTheLength :
    adcState.fsm = .running ∧ fetchInstr adcState = .ok (.adcImm 0x01) ∧ branchTaken .adc adcState = false ∧
    branchTaken .beq adcState = false := ⟨rfl, rfl, rfl, by decide⟩

theorem witness_HandlersLeaveTheRestAlone :
    Instr.tax ≠ .brk ∧ Instr.tax ≠ .cli ∧ Instr.tax ≠ .cld := by decide

theorem witness_ZeroAndNegativeNeverBothSet :
    ∀ i ∈ [.adcImm 0x80, .andImm 0, .aslAcc, .aslZp 0, .cmpImm 0, .cpxImm 0, .cpyImm 0, .ldaImm 0x80, .tax, .inx],
      Instr.mnemonic i ∈ [.adc, .and, .asl, .cmp, .cpx, .cpy, .lda, .tax, .inx] := by decide

theorem witness_InertFlagsAreNeverRead :
    Flag.decimal ∈ [Flag.interruptDisable, .decimal, .break1, .break2] ∧ ∃ t, step adcState = .next t :=
  ⟨by decide, _, rfl⟩

theorem witness_StepAccessesAccountForMemory : ∃ t, step adcState = .next t := ⟨_, rfl⟩

/-- `STA $8003` at 0x8000 with A = 0: the byte after it becomes the halt opcode. -/
theorem witness_StoreIsSeenByTheNextFetch :
    let s := start 0x8000 [0x8D, 0x03, 0x80, 0xFF] 0 0 0 0x24 []
    s.fsm = .running ∧ s.mem.wf = true ∧ fetchInstr s = .ok (.staAbs 0x8003) ∧ Instr.mnemonic (.staAbs 0x8003) = .sta ∧
    ∃ t, step s = .next t ∧ effectiveAddress (.absolute 0x8003) (afterOpcode s) = some t.pc ∧ s.a = 0 :=
  ⟨rfl, rfl, rfl, rfl, _, rfl, rfl, rfl⟩

/-- The same with A = 0xFF: the byte after it becomes an unknown opcode. -/
theorem witness_StoreIsSeenByTheNextFetch_unknown :
    let s := start 0x8000 [0x8D, 0x03, 0x80, 0x00] 0xFF 0 0 0x24 []
    s.fsm = .running ∧ s.mem.wf = true ∧ fetchInstr s = .ok (.staAbs 0x8003) ∧ decodeOpcode s.a = none ∧
    ∃ t, step s = .next t ∧ effectiveAddress (.absolute 0x8003) (afterOpcode s) = some t.pc :=
  ⟨rfl, rfl, rfl, rfl, _, rfl, rfl⟩

theorem witness_StepKeepsInvariant : adcState.Inv ∧ ∃ t, step adcState = .next t :=
  ⟨⟨rfl, by decide⟩, _, rfl⟩

theorem witness_CommandsKeepInvariant :
    State.reset.Inv ∧ ∃ t, command (.loadAndRun [0xA9, 0xC0]) State.reset = .next t := ⟨⟨rfl, by decide⟩, _, rfl⟩

theorem witness_ReachableStatesKeepPowerOnFacts : Reachable powerOnState := .powerOn

theorem witness_ErrorLatchNamesTheByteBeforePc :
    ∃ t, step (start 0xFFFF [0xFF] 0 0 0 0x24 []) = .next t ∧ t.fsm = .faulted := ⟨_, rfl, rfl⟩

theorem witness_ResetSetsRegistersFromTheVector : State.reset.fsm ≠ .running := by decide

theorem witness_ResetIsIdempotent : ∃ t, command .reset State.reset = .next t := ⟨_, rfl⟩

/-- A program that is accepted; the longest one, and the offsets on both sides of the vector. -/
theorem witness_LoadWritesProgramAndVectorOnly :
    State.reset.mem.wf = true ∧ State.reset.fsm ≠ .running ∧ (∃ t, command (.load [0xA9, 0xC0]) State.reset = .next t) ∧
    (List.replicate 0x8000 (0xEA : Byte)).length ≤ 0x8000 ∧
    0x7FFB < (List.replicate 0x8000 (0xEA : Byte)).length ∧ 0x7FFE < (List.replicate 0x8000 (0xEA : Byte)).length ∧
    (0x7FFF : Word).toNat < 0x8000 ∧ 0x8000 + ([0xA9, 0xC0] : List Byte).length ≤ (0x8002 : Word).toNat := by
  simp only [List.length_replicate]
  exact ⟨rfl, by decide, ⟨_, rfl⟩, by decide⟩

theorem witness_OversizeLoadIsRefused :
    State.reset.fsm ≠ .running ∧ 0x8000 < (List.replicate 0x8001 (0xEA : Byte)).length := by
  simp only [List.length_replicate]; decide

theorem witness_OnlyPowerOnIsAcceptedWhileRunning : adcState.fsm = .running ∧ Command.run ≠ .powerOn := by decide

theorem witness_RunOnlyStartsTheRun : State.reset.fsm ≠ .running := by decide

theorem witness_LoadAndRunComposesTheCommands :
    State.reset.fsm ≠ .running ∧ State.reset.mem.wf = true ∧ ([0xA9, 0xC0] : List Byte).length ≤ 0x8000 := by decide

theorem witness_RunOutcomeMatchesTheFinalState : adcState.fsm = .running := rfl

/-- An ended run of each kind and a cut one; then a Running state at a zero byte, at no opcode, and at another byte. -/
theorem witness_LargerBudgetKeepsTheOutcome :
    (∃ t, runFor 1 (start 0x8000 [0x00] 0 0 0 0x24 []) = .halted t) ∧
    (∃ t, runFor 1 (start 0x8000 [0xFF] 0 0 0 0x24 []) = .faulted t) ∧ (∃ t, runFor 0 adcState = .exhausted t) ∧
    (∃ u, step adcState = .next u) ∧
    (start 0x8000 [0x00] 0 0 0 0x24 []).fsm = .running ∧ memRead (start 0x8000 [0x00] 0 0 0 0x24 []) 0x8000 = 0 ∧
    decodeOpcode (memRead (start 0x8000 [0xFF] 0 0 0 0x24 []) 0x8000) = none ∧
    adcState.fsm = .running ∧ memRead adcState adcState.pc ≠ 0 ∧
    decodeOpcode (memRead adcState adcState.pc) ≠ none :=
  ⟨⟨_, rfl⟩, ⟨_, rfl⟩, ⟨_, rfl⟩, ⟨_, rfl⟩, rfl, rfl, rfl, rfl, by decide, by decide⟩

theorem witness_BlocksAreIndependent : ∃ after, stepBlock 1 [State.reset, adcState] = .next after := ⟨_, rfl⟩

theorem witness_PlacedWordIsTheNextInstruction :
    State.reset.mem.wf = true ∧ decodeTableWord 8 0x8D = some (.staAbs 0x0000) := by decide

end Sys2Proof.Tests
end

section
/-! PROOFS. The state and its invariants (spec/10_state.md): the inert flags commute with every handler, what a step
and a command leave alone, and the obligations of that family. -/

namespace Sys2Proof.Machine

/-! ### The inert flags (spec/10_state.md R26) -/

/-- The flags that nothing reads: InterruptDisable, Decimal and the two Break flags (R26). -/
abbrev Flag.Inert (f : Flag) : Prop := f ∈ [.interruptDisable, .decimal, .break1, .break2]

theorem putFlag_comm {f g : Flag} (h : f ≠ g) (b c : Bool) (p : Byte) :
    putFlag f b (putFlag g c p) = putFlag g c (putFlag f b p) := by
  refine status_ext fun k => ?_
  by_cases hf : k = f
  · subst hf
    rw [getFlag_putFlag_self, getFlag_putFlag_ne _ _ h, getFlag_putFlag_self]
  · rw [getFlag_putFlag_ne _ _ hf]
    by_cases hg : k = g
    · subst hg
      rw [getFlag_putFlag_self, getFlag_putFlag_self]
    · rw [getFlag_putFlag_ne _ _ hg, getFlag_putFlag_ne _ _ hg, getFlag_putFlag_ne _ _ hf]

theorem putFlag_overwrite (f : Flag) (b c : Bool) (p : Byte) : putFlag f b (putFlag f c p) = putFlag f b p := by
  refine status_ext fun k => ?_
  by_cases hf : k = f
  · subst hf
    rw [getFlag_putFlag_self, getFlag_putFlag_self]
  · rw [getFlag_putFlag_ne _ _ hf, getFlag_putFlag_ne _ _ hf, getFlag_putFlag_ne _ _ hf]

theorem putFlag_getFlag (f : Flag) (p : Byte) : putFlag f (getFlag f p) p = p := by
  refine status_ext fun k => ?_
  by_cases hf : k = f
  · subst hf
    rw [getFlag_putFlag_self]
  · rw [getFlag_putFlag_ne _ _ hf]

theorem setFlag_comm {f g : Flag} (h : f ≠ g) (b c : Bool) (s : State) :
    setFlag f b (setFlag g c s) = setFlag g c (setFlag f b s) :=
  congrArg (fun p => { s with p := p }) (putFlag_comm h b c s.p)

theorem setFlag_overwrite (f : Flag) (b c : Bool) (s : State) : setFlag f b (setFlag f c s) = setFlag f b s :=
  congrArg (fun p => { s with p := p }) (putFlag_overwrite f b c s.p)

theorem setFlag_flag_self (f : Flag) (s : State) : setFlag f (s.flag f) s = s :=
  congrArg (fun p => { s with p := p }) (putFlag_getFlag f s.p)

/-- A write of any flag after a write of `f` is that write with `f` written last. -/
theorem exists_setFlag_setFlag_eq (f g : Flag) (b c : Bool) (s : State) :
    ∃ d, setFlag g c (setFlag f b s) = setFlag f d (setFlag g c s) := by
  by_cases h : g = f
  · subst h
    exact ⟨c, by rw [setFlag_overwrite, setFlag_overwrite]⟩
  · exact ⟨b, setFlag_comm h c b s⟩

theorem memWrite_setFlag (addr : Word) (v : Byte) (f : Flag) (b : Bool) (s : State) :
    memWrite addr v (setFlag f b s) = setFlag f b (memWrite addr v s) := rfl

section Commuting

variable {f : Flag} (hf : f.Inert) (b : Bool) (s : State)
include hf

theorem Flag.Inert.ne {g : Flag} (hg : ¬ g.Inert) : g ≠ f := fun h => hg (h ▸ hf)

theorem flag_setFlag_inert {g : Flag} (hg : ¬ g.Inert) : (setFlag f b s).flag g = s.flag g :=
  flag_setFlag_ne b s (hf.ne hg)

theorem setFlag_setFlag_inert {g : Flag} (hg : ¬ g.Inert) (c : Bool) :
    setFlag g c (setFlag f b s) = setFlag f b (setFlag g c s) := setFlag_comm (hf.ne hg) c b s

theorem updateZN_setFlag_inert (v : Byte) : updateZN v (setFlag f b s) = setFlag f b (updateZN v s) := by
  unfold updateZN
  rw [setFlag_setFlag_inert hf b _ (by decide), setFlag_setFlag_inert hf b _ (by decide)]

theorem setA_setFlag_inert (v : Byte) : setA v (setFlag f b s) = setFlag f b (setA v s) :=
  updateZN_setFlag_inert hf b { s with a := v } v

theorem setX_setFlag_inert (v : Byte) : setX v (setFlag f b s) = setFlag f b (setX v s) :=
  updateZN_setFlag_inert hf b { s with x := v } v

theorem addWithCarry_setFlag_inert (m : Byte) :
    addWithCarry m (setFlag f b s) = setFlag f b (addWithCarry m s) := by
  unfold addWithCarry
  rw [setFlag_a, flag_setFlag_inert hf b s (by decide), setFlag_setFlag_inert hf b _ (by decide),
    setFlag_setFlag_inert hf b _ (by decide), setA_setFlag_inert hf]

theorem compareWith_setFlag_inert (r m : Byte) :
    compareWith r m (setFlag f b s) = setFlag f b (compareWith r m s) := by
  unfold compareWith
  rw [setFlag_setFlag_inert hf b _ (by decide), updateZN_setFlag_inert hf]

theorem bitFlags_setFlag_inert (m : Byte) : bitFlags m (setFlag f b s) = setFlag f b (bitFlags m s) := by
  unfold bitFlags
  rw [setFlag_a, setFlag_setFlag_inert hf b _ (by decide), setFlag_setFlag_inert hf b _ (by decide),
    setFlag_setFlag_inert hf b _ (by decide)]

theorem bitTest_setFlag_inert (writesA : Bool) (m : Byte) :
    bitTest writesA m (setFlag f b s) = setFlag f b (bitTest writesA m s) := by
  cases writesA with
  | false => exact bitFlags_setFlag_inert hf b s m
  | true => exact congrArg (fun t : State => { t with a := and8 s.a m }) (bitFlags_setFlag_inert hf b s m)

theorem shiftA_setFlag_inert : shiftA (setFlag f b s) = setFlag f b (shiftA s) := by
  unfold shiftA
  rw [setFlag_a, setFlag_setFlag_inert hf b _ (by decide), setA_setFlag_inert hf]

theorem shiftMem_setFlag_inert (addr : Word) : shiftMem addr (setFlag f b s) = setFlag f b (shiftMem addr s) := by
  unfold shiftMem
  rw [memRead_congr (setFlag_mem f b s), setFlag_setFlag_inert hf b _ (by decide), memWrite_setFlag,
    updateZN_setFlag_inert hf]

theorem branchTaken_setFlag_inert (m : Mnemonic) : branchTaken m (setFlag f b s) = branchTaken m s := by
  unfold branchTaken
  rw [flag_setFlag_inert hf b s (by decide), flag_setFlag_inert hf b s (by decide),
    flag_setFlag_inert hf b s (by decide), flag_setFlag_inert hf b s (by decide)]

end Commuting

theorem effectiveAddress_setFlag (o : Operand) (f : Flag) (b : Bool) (s : State) :
    effectiveAddress o (setFlag f b s) = effectiveAddress o s := by cases o <;> rfl

theorem operandValue_setFlag (o : Operand) (f : Flag) (b : Bool) (s : State) :
    operandValue o (setFlag f b s) = operandValue o s := by cases o <;> rfl

theorem branchIf_setFlag (cond : Bool) (rel8 : Byte) (f : Flag) (b : Bool) (s : State) :
    branchIf cond rel8 (setFlag f b s) = setFlag f b (branchIf cond rel8 s) := by cases cond <;> rfl

/-! ### Ordinary transitions (spec/42_dispatch_fsm.md R141) -/

/-- What all handlers but those of CLI, CLD and the halt have in common: Y, `err` and `fsm` are unchanged, memory stays
canonical, and an inert flag is neither read nor written (R141, spec/10_state.md R26). -/
structure Ordinary (g : State → State) : Prop where
  y : ∀ s, (g s).y = s.y
  err : ∀ s, (g s).err = s.err
  fsm : ∀ s, (g s).fsm = s.fsm
  wf : ∀ s, s.mem.wf = true → (g s).mem.wf = true
  commutes : ∀ {f : Flag}, f.Inert → ∀ b s, g (setFlag f b s) = setFlag f b (g s)

/-- To commute with every value of a flag is to leave it alone: take the value it has. -/
theorem Ordinary.flag_inert {g : State → State} (hg : Ordinary g) {f : Flag} (hf : f.Inert) (s : State) :
    (g s).flag f = s.flag f :=
  calc (g s).flag f = (g (setFlag f (s.flag f) s)).flag f := by rw [setFlag_flag_self]
    _ = (setFlag f (s.flag f) (g s)).flag f := by rw [hg.commutes hf]
    _ = s.flag f := flag_setFlag_self f _ _

/-- A handler that resolves an argument no flag has a part in, works on it in an ordinary way and then advances PC. -/
theorem ordinary_of_resolved {α : Type} {arg : State → Option α} {work : α → State → State} {n : Nat}
    {g : State → State} (harg : ∀ f b s, arg (setFlag f b s) = arg s) (hw : ∀ m, Ordinary (work m))
    (hg : ∀ s, ∃ m, arg s = some m ∧ g s = advancePc n (work m s)) : Ordinary g where
  y s := by obtain ⟨m, -, h⟩ := hg s; rw [h, advancePc_y, (hw m).y]
  err s := by obtain ⟨m, -, h⟩ := hg s; rw [h, advancePc_err, (hw m).err]
  fsm s := by obtain ⟨m, -, h⟩ := hg s; rw [h, advancePc_fsm, (hw m).fsm]
  wf s hs := by obtain ⟨m, -, h⟩ := hg s; rw [h, advancePc_mem]; exact (hw m).wf s hs
  commutes {f} hf b s := by
    obtain ⟨m, hm, h⟩ := hg s
    obtain ⟨m', hm', h'⟩ := hg (setFlag f b s)
    obtain rfl : m = m' := Option.some.inj (hm.symm.trans ((harg f b s).symm.trans hm'))
    rw [h, h', (hw m).commutes hf]
    rfl

theorem withOperand_ordinary {o : Operand} {work : Byte → State → State} (ho : o ≠ .none)
    (hw : ∀ m, Ordinary (work m)) : Ordinary (withOperand o work) :=
  ordinary_of_resolved (operandValue_setFlag o) hw
    fun s => (withOperand_cases o work s).resolve_right fun ⟨h, _⟩ => ho h

theorem withAddress_ordinary {o : Operand} {work : Word → State → State} (ho : o ≠ .none)
    (hw : ∀ addr, Ordinary (work addr)) : Ordinary (withAddress o work) :=
  ordinary_of_resolved (effectiveAddress_setFlag o) hw
    fun s => (withAddress_cases o work s).resolve_right fun ⟨h, _⟩ => ho h

theorem addWithCarry_ordinary (m : Byte) : Ordinary (addWithCarry m) where
  y _ := rfl
  err _ := rfl
  fsm _ := rfl
  wf _ h := h
  commutes hf b s := addWithCarry_setFlag_inert hf b s m

/-- The register of a compare may be any that no flag is part of. -/
theorem compareWith_ordinary {r : State → Byte} (hr : ∀ f b s, r (setFlag f b s) = r s) (m : Byte) :
    Ordinary (fun s => compareWith (r s) m s) where
  y _ := rfl
  err _ := rfl
  fsm _ := rfl
  wf _ h := h
  commutes {f} hf b s := by rw [hr f b s, compareWith_setFlag_inert hf]

theorem bitTest_ordinary (writesA : Bool) (m : Byte) : Ordinary (bitTest writesA m) where
  y s := by obtain ⟨-, -, hy, -⟩ := bitTest_fields writesA m s; exact hy
  err s := by obtain ⟨-, -, -, -, -, -, he⟩ := bitTest_fields writesA m s; exact he
  fsm s := by obtain ⟨-, -, -, -, -, hf, -⟩ := bitTest_fields writesA m s; exact hf
  wf s h := by obtain ⟨-, -, -, -, hm, -⟩ := bitTest_fields writesA m s; rwa [hm]
  commutes hf b s := bitTest_setFlag_inert hf b s writesA m

/-- The accumulator may take any value that no inert flag has a part in. -/
theorem setA_ordinary {v : State → Byte} (hv : ∀ f b s, v (setFlag f b s) = v s) :
    Ordinary (fun s => setA (v s) s) where
  y _ := rfl
  err _ := rfl
  fsm _ := rfl
  wf _ h := h
  commutes {f} hf b s := by rw [hv f b s, setA_setFlag_inert hf]

theorem setX_ordinary {v : State → Byte} (hv : ∀ f b s, v (setFlag f b s) = v s) :
    Ordinary (fun s => setX (v s) s) where
  y _ := rfl
  err _ := rfl
  fsm _ := rfl
  wf _ h := h
  commutes {f} hf b s := by rw [hv f b s, setX_setFlag_inert hf]

theorem shiftA_ordinary : Ordinary shiftA where
  y _ := rfl
  err _ := rfl
  fsm _ := rfl
  wf _ h := h
  commutes hf b s := shiftA_setFlag_inert hf b s

theorem shiftMem_ordinary (addr : Word) : Ordinary (shiftMem addr) where
  y _ := rfl
  err _ := rfl
  fsm _ := rfl
  wf _ h := Memory.wf_write addr _ h
  commutes hf b s := shiftMem_setFlag_inert hf b s addr

theorem storeA_ordinary (addr : Word) : Ordinary (fun s => memWrite addr s.a s) where
  y _ := rfl
  err _ := rfl
  fsm _ := rfl
  wf _ h := Memory.wf_write addr _ h
  commutes _ _ _ := rfl

theorem branch_ordinary (m : Mnemonic) (rel8 : Byte) :
    Ordinary (fun s => branchIf (branchTaken m s) rel8 s) where
  y s := by rw [branchIf_eq]
  err s := by rw [branchIf_eq]
  fsm s := by rw [branchIf_eq]
  wf s h := by rwa [branchIf_eq]
  commutes hf b s := by rw [branchTaken_setFlag_inert hf, branchIf_setFlag]

theorem clearFlag_ordinary {g : Flag} (hg : ¬ g.Inert) : Ordinary (clearFlag g) where
  y _ := rfl
  err _ := rfl
  fsm _ := rfl
  wf _ h := h
  commutes hf b s := setFlag_setFlag_inert hf b s hg false

/-! ### Every instruction but CLI, CLD and the halt is ordinary -/

/-- An instruction whose meaning is one ordinary transition. -/
def ActsOrdinarily (i : Instr) : Prop := ∃ g, Ordinary g ∧ ∀ s, exec i s = .next (g s)

section Mnemonics

variable {i : Instr}

/-- A row whose handler reads a memory operand. -/
theorem acts_of_withOperand {work : Byte → State → State} (hw : ∀ m, Ordinary (work m))
    (h : ∀ s, i.mode ≠ .none ∧ exec i s = .next (withOperand i.operand work s)) : ActsOrdinarily i :=
  ⟨_, withOperand_ordinary (operand_of_memory_form (h .reset).1).1 hw, fun s => (h s).2⟩

/-- A row whose handler works on its effective address. -/
theorem acts_of_withAddress {work : Word → State → State} (hw : ∀ addr, Ordinary (work addr))
    (h : ∀ s, i.mode ≠ .none ∧ exec i s = .next (withAddress i.operand work s)) : ActsOrdinarily i :=
  ⟨_, withAddress_ordinary (operand_of_memory_form (h .reset).1).1 hw, fun s => (h s).2⟩

theorem adc_acts_ordinarily (h : i.mnemonic = .adc) : ActsOrdinarily i :=
  acts_of_withOperand addWithCarry_ordinary (exec_adc h)

theorem cmp_acts_ordinarily (h : i.mnemonic = .cmp) : ActsOrdinarily i :=
  acts_of_withOperand (compareWith_ordinary setFlag_a) (exec_cmp h)

theorem cpx_acts_ordinarily (h : i.mnemonic = .cpx) : ActsOrdinarily i :=
  acts_of_withOperand (compareWith_ordinary setFlag_x) (exec_cpx h)

theorem cpy_acts_ordinarily (h : i.mnemonic = .cpy) : ActsOrdinarily i :=
  acts_of_withOperand (compareWith_ordinary setFlag_y) (exec_cpy h)

theorem and_acts_ordinarily (h : i.mnemonic = .and) : ActsOrdinarily i :=
  acts_of_withOperand (fun _ => setA_ordinary fun _ _ _ => rfl) (exec_and h)

theorem asl_acts_ordinarily (h : i.mnemonic = .asl) : ActsOrdinarily i := by
  by_cases hacc : i = .aslAcc
  · subst hacc
    exact ⟨shiftA, shiftA_ordinary, fun _ => rfl⟩
  · exact acts_of_withAddress shiftMem_ordinary (exec_asl h hacc)

theorem bit_acts_ordinarily (h : i.mnemonic = .bit) : ActsOrdinarily i :=
  acts_of_withOperand (bitTest_ordinary Config.bitWritesA) (exec_bit h)

theorem lda_acts_ordinarily (h : i.mnemonic = .lda) : ActsOrdinarily i :=
  acts_of_withOperand (fun _ => setA_ordinary fun _ _ _ => rfl) (exec_lda h)

theorem sta_acts_ordinarily (h : i.mnemonic = .sta) : ActsOrdinarily i :=
  acts_of_withAddress storeA_ordinary (exec_sta h)

end Mnemonics

/-- Every instruction acts ordinarily, but for CLD and CLI, which each clear an inert flag, and the halt. -/
theorem actsOrdinarily_or_cld_cli_brk (i : Instr) : ActsOrdinarily i ∨ i = .cld ∨ i = .cli ∨ i = .brk := by
  cases i with
  | cld => exact .inr (.inl rfl)
  | cli => exact .inr (.inr (.inl rfl))
  | brk => exact .inr (.inr (.inr rfl))
  | clc => exact .inl ⟨_, clearFlag_ordinary (g := .carry) (by decide), fun _ => rfl⟩
  | clv => exact .inl ⟨_, clearFlag_ordinary (g := .overflow) (by decide), fun _ => rfl⟩
  | tax => exact .inl ⟨_, setX_ordinary setFlag_a, fun _ => rfl⟩
  | inx => exact .inl ⟨_, setX_ordinary (v := fun s => inc8 s.x) fun _ _ _ => rfl, fun _ => rfl⟩
  | bcc d => exact .inl ⟨_, branch_ordinary .bcc d, fun _ => rfl⟩
  | bcs d => exact .inl ⟨_, branch_ordinary .bcs d, fun _ => rfl⟩
  | beq d => exact .inl ⟨_, branch_ordinary .beq d, fun _ => rfl⟩
  | bmi d => exact .inl ⟨_, branch_ordinary .bmi d, fun _ => rfl⟩
  | bne d => exact .inl ⟨_, branch_ordinary .bne d, fun _ => rfl⟩
  | bpl d => exact .inl ⟨_, branch_ordinary .bpl d, fun _ => rfl⟩
  | bvc d => exact .inl ⟨_, branch_ordinary .bvc d, fun _ => rfl⟩
  | bvs d => exact .inl ⟨_, branch_ordinary .bvs d, fun _ => rfl⟩
  | adcImm | adcZp | adcZpX | adcAbs | adcAbsX | adcAbsY | adcIndX | adcIndY => exact .inl (adc_acts_ordinarily rfl)
  | cmpImm | cmpZp | cmpZpX | cmpAbs | cmpAbsX | cmpAbsY | cmpIndX | cmpIndY => exact .inl (cmp_acts_ordinarily rfl)
  | cpxImm | cpxZp | cpxAbs => exact .inl (cpx_acts_ordinarily rfl)
  | cpyImm | cpyZp | cpyAbs => exact .inl (cpy_acts_ordinarily rfl)
  | andImm | andZp | andZpX | andAbs | andAbsX | andAbsY | andIndX | andIndY => exact .inl (and_acts_ordinarily rfl)
  | aslAcc | aslZp | aslZpX | aslAbs | aslAbsX => exact .inl (asl_acts_ordinarily rfl)
  | bitZp | bitAbs => exact .inl (bit_acts_ordinarily rfl)
  | ldaImm | ldaZp | ldaZpX | ldaAbs | ldaAbsX | ldaAbsY | ldaIndX | ldaIndY => exact .inl (lda_acts_ordinarily rfl)
  | staZp | staZpX | staAbs | staAbsX | staAbsY | staIndX | staIndY => exact .inl (sta_acts_ordinarily rfl)

/-! ### Steps (spec/42_dispatch_fsm.md R132, R135) -/

theorem step_of_fetched {s : State} {i : Instr} (hr : s.fsm = .running) (hi : fetchInstr s = .ok i) :
    step s = exec i (afterOpcode s) := by
  simp [step, stepOf, hr, runningStep, hi]

theorem step_of_no_row {s : State} (hr : s.fsm = .running) (hn : rowOf (memRead s s.pc) = none) :
    step s = .next (unknownOpcodeStop s) := by
  have hi : fetchInstr s = .error (.unknownOpcode (memRead s s.pc)) := decodeInstr_error_iff.2 ⟨hn, rfl⟩
  simp [step, stepOf, hr, runningStep, hi]

/-- The five things a step that answers a next state can have done: an ordinary transition, CLD, CLI, the halt, or the
unknown-opcode stop. -/
theorem step_next_cases {s t : State} (h : step s = .next t) :
    s.fsm = .running ∧
    ((∃ g, Ordinary g ∧ t = g (afterOpcode s)) ∨ t = clearFlag .decimal (afterOpcode s) ∨
      t = clearFlag .interruptDisable (afterOpcode s) ∨ t = halt (afterOpcode s) ∨
      (rowOf (memRead s s.pc) = none ∧ t = unknownOpcodeStop s)) := by
  obtain ⟨hr, i, -, he⟩ | ⟨hr, hn, he⟩ | ⟨-, he⟩ := step_cases s
  · refine ⟨hr, ?_⟩
    rw [he] at h
    obtain ⟨g, hg, hex⟩ | rfl | rfl | rfl := actsOrdinarily_or_cld_cli_brk i
    · rw [hex] at h
      cases h
      exact .inl ⟨g, hg, rfl⟩
    · cases h
      exact .inr (.inl rfl)
    · cases h
      exact .inr (.inr (.inl rfl))
    · cases h
      exact .inr (.inr (.inr (.inl rfl)))
  · rw [he] at h
    cases h
    exact ⟨hr, .inr (.inr (.inr (.inr ⟨hn, rfl⟩)))⟩
  · rw [he] at h
    cases h

/-! ### The inert flags influence nothing -/

/-- The commuting square of an instruction with a write of an inert flag: afterwards the two states differ in that
flag at most (CLD and CLI may have made it equal). -/
theorem exec_setFlag_inert {f : Flag} (hf : f.Inert) (b : Bool) (i : Instr) (s : State) :
    ∃ t c, exec i s = .next t ∧ exec i (setFlag f b s) = .next (setFlag f c t) := by
  obtain ⟨g, hg, he⟩ | rfl | rfl | rfl := actsOrdinarily_or_cld_cli_brk i
  · exact ⟨g s, b, he s, by rw [he, hg.commutes hf]⟩
  · obtain ⟨c, hc⟩ := exists_setFlag_setFlag_eq f .decimal b false s
    exact ⟨_, c, rfl, congrArg _ hc⟩
  · obtain ⟨c, hc⟩ := exists_setFlag_setFlag_eq f .interruptDisable b false s
    exact ⟨_, c, rfl, congrArg _ hc⟩
  · exact ⟨_, b, rfl, rfl⟩

/-- The same square for a step: the fetch, the halt and the unknown-opcode stop read no flag. -/
theorem step_setFlag_inert {f : Flag} (hf : f.Inert) (b : Bool) {s t : State} (h : step s = .next t) :
    ∃ c, step (setFlag f b s) = .next (setFlag f c t) := by
  obtain ⟨hr, i, hi, he⟩ | ⟨hr, hn, he⟩ | ⟨-, he⟩ := step_cases s
  · obtain ⟨u, c, hu, hc⟩ := exec_setFlag_inert hf b i (afterOpcode s)
    obtain rfl : u = t := Host.Outcome.next.inj (hu.symm.trans (he.symm.trans h))
    exact ⟨c, (step_of_fetched (s := setFlag f b s) hr hi).trans hc⟩
  · cases he.symm.trans h
    exact ⟨b, step_of_no_row (s := setFlag f b s) hr hn⟩
  · cases he.symm.trans h

/-- Settles O31, by the commuting square of a step with a write of an inert flag. -/
theorem inertFlagsAreNeverRead : Obligations.InertFlagsAreNeverRead := by
  intro s t f b hf h
  obtain ⟨c, hc⟩ := step_setFlag_inert hf b h
  exact ⟨setFlag f c t, hc, ⟨rfl, rfl, rfl⟩, rfl, rfl, ⟨rfl, rfl⟩,
    fun g hg => flag_setFlag_ne c t (by simpa using hg)⟩

/-! ### The invariant (spec/10_state.md R29, R34) -/

theorem inv_of_no_error {s : State} (hwf : s.mem.wf = true) (hr : s.fsm ≠ .faulted) (he : s.err = none) : s.Inv :=
  ⟨hwf, by simp [hr, he]⟩

theorem State.Inv.err_of_running {s : State} (hs : s.Inv) (hr : s.fsm = .running) : s.err = none := by
  by_contra he
  exact absurd (hr.symm.trans (hs.2.1 he)) (by decide)

theorem inv_powerOnState : powerOnState.Inv := inv_of_no_error reset_mem_wf (by decide) rfl

theorem inv_loadProgram {s : State} (bytes : List Byte) (hs : s.Inv) : (loadProgram bytes s).Inv :=
  ⟨Memory.wf_writeBytes _ _ (Memory.wf_writeBytes _ _ hs.1), hs.2⟩

theorem inv_resetBlock {s : State} (hs : s.Inv) : (resetBlock s).Inv :=
  inv_of_no_error hs.1 (by simp) rfl

theorem inv_startRun {s : State} (hs : s.Inv) : (startRun s).Inv :=
  inv_of_no_error hs.1 (by simp) rfl

/-- Settles O34, by the five things a step can do. -/
theorem stepKeepsInvariant : Obligations.StepKeepsInvariant := by
  intro s t hs h
  obtain ⟨hr, ⟨g, hg, rfl⟩ | rfl | rfl | rfl | ⟨-, rfl⟩⟩ := step_next_cases h
  · exact ⟨hg.wf _ hs.1, by rw [hg.err, hg.fsm]; exact hs.2⟩
  · exact hs
  · exact hs
  · exact inv_of_no_error hs.1 (by simp) (hs.err_of_running hr)
  · exact ⟨hs.1, by simp [unknownOpcodeStop]⟩

/-- Settles O35, by one lemma for each effect that a command is made of. -/
theorem commandsKeepInvariant : Obligations.CommandsKeepInvariant := by
  intro c s t hs h
  obtain ⟨-, rfl⟩ := command_next h
  cases c with
  | powerOn => exact inv_powerOnState
  | load bytes => exact inv_loadProgram bytes hs
  | reset => exact inv_resetBlock hs
  | run => exact inv_startRun hs
  | loadAndRun bytes => exact inv_startRun (inv_resetBlock (inv_loadProgram bytes hs))

/-- Settles O36: the reset state is the state after `PowerOn`. -/
theorem resetMeetsInvariant : Obligations.ResetMeetsInvariant := by
  rw [Obligations.ResetMeetsInvariant, ← powerOnState_eq_reset]
  exact inv_powerOnState

/-- Settles O38: of the five things a step can do only the unknown-opcode stop makes `fsm` Faulted. -/
theorem errorLatchNamesTheByteBeforePc : Obligations.ErrorLatchNamesTheByteBeforePc := by
  intro s t h hfault
  obtain ⟨hr, ⟨g, hg, rfl⟩ | rfl | rfl | rfl | ⟨hn, rfl⟩⟩ := step_next_cases h
  · simp [hg.fsm, hr] at hfault
  · simp [clearFlag, hr] at hfault
  · simp [clearFlag, hr] at hfault
  · simp at hfault
  · have hpc : (unknownOpcodeStop s).pc - 1 = s.pc := by simp [unknownOpcodeStop]
    have hread : memRead (unknownOpcodeStop s) s.pc = memRead s s.pc := memRead_congr rfl _
    rw [hpc, hread]
    exact ⟨rfl, by rw [decodeOpcode, hn, Option.map_none]⟩

/-! ### Every reachable state (spec/10_state.md R23, R26, spec/40_addressing_modes.md R110) -/

/-- What `PowerOn` establishes and neither a command nor a step undoes. -/
structure PowerOnFacts (s : State) : Prop where
  y : s.y = 0
  decimal : s.flag .decimal = false
  break1 : s.flag .break1 = false
  break2 : s.flag .break2 = true
  err : s.err ≠ some .invalidAddressingMode

theorem powerOnFacts_powerOnState : PowerOnFacts powerOnState := ⟨rfl, rfl, rfl, rfl, nofun⟩

theorem powerOnFacts_resetBlock {s : State} (hs : PowerOnFacts s) : PowerOnFacts (resetBlock s) := by
  have hflag := flag_congr (show (resetBlock s).p = powerOnState.p from rfl)
  exact ⟨hs.y, hflag .decimal, hflag .break1, hflag .break2, nofun⟩

theorem powerOnFacts_startRun {s : State} (hs : PowerOnFacts s) : PowerOnFacts (startRun s) :=
  { hs with err := nofun }

theorem powerOnFacts_loadProgram {s : State} (bytes : List Byte) (hs : PowerOnFacts s) :
    PowerOnFacts (loadProgram bytes s) := { hs with }

theorem powerOnFacts_clearFlag {s : State} {f : Flag} (hf : f ≠ .break2) (hs : PowerOnFacts s) :
    PowerOnFacts (clearFlag f s) where
  y := hs.y
  decimal := by simp [clearFlag, flag_setFlag, hs.decimal]
  break1 := by simp [clearFlag, flag_setFlag, hs.break1]
  break2 := by rw [clearFlag, flag_setFlag_ne _ _ hf.symm, hs.break2]
  err := hs.err

theorem powerOnFacts_command {c : Command} {s t : State} (hs : PowerOnFacts s) (h : command c s = .next t) :
    PowerOnFacts t := by
  obtain ⟨-, rfl⟩ := command_next h
  cases c with
  | powerOn => exact powerOnFacts_powerOnState
  | load bytes => exact powerOnFacts_loadProgram bytes hs
  | reset => exact powerOnFacts_resetBlock hs
  | run => exact powerOnFacts_startRun hs
  | loadAndRun bytes => exact powerOnFacts_startRun (powerOnFacts_resetBlock (powerOnFacts_loadProgram bytes hs))

theorem powerOnFacts_step {s t : State} (hs : PowerOnFacts s) (h : step s = .next t) : PowerOnFacts t := by
  have ha : PowerOnFacts (afterOpcode s) := { hs with }
  obtain ⟨-, ⟨g, hg, rfl⟩ | rfl | rfl | rfl | ⟨-, rfl⟩⟩ := step_next_cases h
  · constructor
    · rw [hg.y, ha.y]
    · rw [hg.flag_inert (by decide), ha.decimal]
    · rw [hg.flag_inert (by decide), ha.break1]
    · rw [hg.flag_inert (by decide), ha.break2]
    · rw [hg.err]
      exact ha.err
  · exact powerOnFacts_clearFlag (by decide) ha
  · exact powerOnFacts_clearFlag (by decide) ha
  · exact { ha with }
  · exact { ha with err := nofun }

theorem powerOnFacts_of_reachable {s : State} (h : Reachable s) : PowerOnFacts s := by
  induction h with
  | powerOn => exact powerOnFacts_powerOnState
  | command c _ hc ih => exact powerOnFacts_command ih hc
  | step _ ht ih => exact powerOnFacts_step ih ht

/-- Settles O37, by induction on how the state was reached. -/
theorem reachableStatesKeepPowerOnFacts : Obligations.ReachableStatesKeepPowerOnFacts := by
  intro s h
  obtain ⟨hy, hd, hb1, hb2, he⟩ := powerOnFacts_of_reachable h
  exact ⟨hy, hd, hb1, hb2, he⟩

/-! ### PowerOn and Reset (spec/10_state.md R31, R33) -/

/-- Settles O39: `PowerOn` is never refused, and its state is written out. -/
theorem powerOnSetsEverything : Obligations.PowerOnSetsEverything :=
  fun _ => ⟨powerOnState, rfl, rfl, rfl, rfl, rfl, rfl, fun _ => rfl, rfl, rfl⟩

theorem command_reset {s : State} (h : s.fsm ≠ .running) : command .reset s = .next (resetBlock s) := by
  simp [command, commandRefusal, commandEffect, h]

/-- What `Reset` reads, the vector and Y, it does not write. -/
theorem resetBlock_resetBlock (s : State) : resetBlock (resetBlock s) = resetBlock s := rfl

/-- Settles O41: after `Reset` the block is Idle, so a second one is accepted, and it finds the same vector. -/
theorem resetIsIdempotent : Obligations.ResetIsIdempotent := by
  intro s t h
  obtain ⟨-, rfl⟩ := command_next h
  calc command .reset (resetBlock s) = .next (resetBlock (resetBlock s)) := command_reset (by simp)
    _ = .next (resetBlock s) := by rw [resetBlock_resetBlock]

end Sys2Proof.Machine
end

section
/-! PROOFS. Memory (spec/20_memory.md): what a store leaves for the next fetch, and several blocks side by side. -/

namespace Sys2Proof.Machine

/-! ### A store and the next fetch (spec/20_memory.md R65) -/

/-- A step of STA: A goes to the effective address, and PC passes the opcode and the operand bytes (R191). -/
theorem step_of_sta {s : State} {i : Instr} {addr : Word} (hr : s.fsm = .running) (hi : fetchInstr s = .ok i)
    (hm : i.mnemonic = .sta) (ha : effectiveAddress i.operand (afterOpcode s) = some addr) :
    step s = .next (advancePc (operandLength i.operand) (memWrite addr s.a (afterOpcode s))) := by
  obtain ⟨-, hex⟩ := exec_sta hm (afterOpcode s)
  rw [step_of_fetched hr hi, hex, staHandler, withAddress_of_address _ ha, afterOpcode_a]

theorem decodeOpcode_eq_none_iff (op : Byte) : decodeOpcode op = none ↔ rowOf op = none :=
  Option.map_eq_none_iff

theorem step_of_unknown_opcode {s : State} (hr : s.fsm = .running) (hn : decodeOpcode (memRead s s.pc) = none) :
    step s = .next (unknownOpcodeStop s) :=
  step_of_no_row hr ((decodeOpcode_eq_none_iff _).1 hn)

/-- Opcode 0x00 is the halt, whatever bytes follow it (spec/42_dispatch_fsm.md R134). -/
theorem step_of_zero_byte {s : State} (hr : s.fsm = .running) (hz : memRead s s.pc = 0) :
    step s = .next (halt (afterOpcode s)) := by
  have hi : fetchInstr s = .ok .brk := by
    rw [fetchInstr, hz]
    rfl
  exact step_of_fetched hr hi

/-- Settles O33: the store leaves A at the address that PC then holds, and the next step fetches there. -/
theorem storeIsSeenByTheNextFetch : Obligations.StoreIsSeenByTheNextFetch := by
  intro s t i hr hwf hi hm h ha
  have ht := Host.Outcome.next.inj (h.symm.trans (step_of_sta hr hi hm ha))
  have hmem : t.mem = (memWrite t.pc s.a (afterOpcode s)).mem := (congrArg State.mem ht).trans (advancePc_mem _ _)
  have hrun : t.fsm = .running := (congrArg State.fsm ht).trans hr
  have hread : memRead t t.pc = s.a := (memRead_congr hmem t.pc).trans (memRead_memWrite_self t.pc s.a hwf)
  refine ⟨hread, fun hn => ?_, fun hz => ?_⟩
  · exact step_of_unknown_opcode hrun (by rwa [hread])
  · exact step_of_zero_byte hrun (hread.trans hz)

/-! ### Several blocks (spec/20_memory.md R67) -/

/-- All that a step of one block among several can do: it is that block's own step, put back in its place. -/
theorem stepBlock_next {blocks after : List State} {k : Nat} (h : stepBlock k blocks = .next after) :
    ∃ s t, blocks[k]? = some s ∧ step s = .next t ∧ after = blocks.set k t := by
  unfold stepBlock at h
  cases hs : blocks[k]? with
  | none => simp [hs] at h
  | some s =>
    cases ht : step s with
    | next t => exact ⟨s, t, rfl, ht, by simpa [hs, ht] using h.symm⟩
    | fault r => simp [hs, ht] at h
    | refused r => simp [hs, ht] at h

/-- Settles O49: the list after the step is the old one with block `k` replaced. -/
theorem blocksAreIndependent : Obligations.BlocksAreIndependent := by
  intro blocks after k h
  obtain ⟨s, t, hs, ht, rfl⟩ := stepBlock_next h
  have hk : k < blocks.length := (List.getElem?_eq_some_iff.1 hs).1
  exact ⟨List.length_set, ⟨s, t, hs, List.getElem?_set_self hk, ht⟩, fun j hj => List.getElem?_set_ne hj.symm⟩

end Sys2Proof.Machine
end

section
/-! PROOFS. The encoding (spec/30_encoding.md): the decoder's table against the opcode map, what the opcode byte alone
decides, and the length by which a step advances PC. -/

namespace Sys2Proof

/-! ### The decoder's table (spec/30_encoding.md R83, R87) -/

/-- The 67 one-constructor laws together: every instruction is well formed and as long as its format says. -/
theorem Laws.EncodedLength.all (i : Instr) : EncodedLength.Statement i := by
  cases i
  exacts [adcImm _, adcZp _, adcZpX _, adcAbs _, adcAbsX _, adcAbsY _, adcIndX _, adcIndY _, andImm _, andZp _,
    andZpX _, andAbs _, andAbsX _, andAbsY _, andIndX _, andIndY _, aslAcc, aslZp _, aslZpX _, aslAbs _, aslAbsX _,
    bcc _, bcs _, beq _, bmi _, bne _, bpl _, bvc _, bvs _, bitZp _, bitAbs _, clc, cld, cli, clv, cmpImm _, cmpZp _,
    cmpZpX _, cmpAbs _, cmpAbsX _, cmpAbsY _, cmpIndX _, cmpIndY _, cpxImm _, cpxZp _, cpxAbs _, cpyImm _, cpyZp _,
    cpyAbs _, ldaImm _, ldaZp _, ldaZpX _, ldaAbs _, ldaAbsX _, ldaAbsY _, ldaIndX _, ldaIndY _, staZp _, staZpX _,
    staAbs _, staAbsX _, staAbsY _, staIndX _, staIndY _, tax, inx, brk]

theorem encode_length (i : Instr) : (encode i).length = i.length := (Laws.EncodedLength.all i).1

theorem wellFormed_of_instr (i : Instr) : i.wellFormed = true := (Laws.EncodedLength.all i).2

theorem rowOf_eq_none_iff (op : Byte) : rowOf op = none ↔ op ∉ opcodeRows.map Row.opcode := by
  simp [rowOf, List.find?_eq_none]

/-- Settles O5: the row is found by the opcode byte alone, and its columns describe what it makes of any operand
bytes. -/
theorem opcodeAloneDecidesTheInstruction : Obligations.OpcodeAloneDecidesTheInstruction := by
  intro op lo hi lo' hi' i h
  obtain ⟨r, hr, rfl⟩ := decodeInstr_ok_iff.1 h
  obtain ⟨hrow, -⟩ := rowOf_some hr
  obtain ⟨-, hmn, hmd, hf, -⟩ := row_describes r hrow lo hi
  obtain ⟨-, hmn', hmd', hf', -⟩ := row_describes r hrow lo' hi'
  refine ⟨?_, wellFormed_of_instr _, r.make lo' hi', decodeInstr_ok_iff.2 ⟨r, hr, rfl⟩, ?_, ?_, ?_⟩
  · rw [decodeOpcode, hr, hmn, hmd, Option.map_some]
  · rw [hmn', hmn]
  · rw [hmd', hmd]
  · rw [Instr.length, Instr.length, hf', hf]

/-- Settles O1: each word is evaluated. -/
theorem specWordsDecode : Obligations.SpecWordsDecode :=
  ⟨rfl, rfl, rfl, rfl, rfl, rfl, rfl, rfl, rfl, rfl, rfl, rfl⟩

/-- Settles O2: the listed bytes decode by evaluation, and they are all the opcode bytes of the table, so that any
other byte has no row. -/
theorem opcodeMapIsExact : Obligations.OpcodeMapIsExact := by
  intro lo hi rows hrows
  have hlisted : rows.map (fun row => decodeInstr row.1 lo hi) = rows.map (fun row => .ok row.2) := by
    subst hrows
    rfl
  have hcover : opcodeRows.map Row.opcode ⊆ rows.map Prod.fst := by
    subst hrows
    simp only [List.map_append, List.map_cons, List.map_nil]
    decide
  refine ⟨List.map_inj_left.1 hlisted, fun op hop => decodeInstr_error_iff.2 ⟨?_, rfl⟩⟩
  exact (rowOf_eq_none_iff op).2 fun hmem => hop (hcover hmem)

end Sys2Proof

namespace Sys2Proof.Machine

/-! ### PC after an instruction (spec/30_encoding.md R81, spec/42_dispatch_fsm.md R133) -/

section MemoryForms

variable {i : Instr} {s : State} (hmode : i.mode ≠ .none)
include hmode

/-- A handler that reads a memory operand advances PC past the operand bytes of its row. -/
theorem pcAdvanced_withOperand {work : Byte → State → State} (hw : ∀ m, (work m s).pc = s.pc) :
    PcAdvanced i s (withOperand i.operand work s) := by
  obtain ⟨hop, hlen⟩ := operand_of_memory_form hmode
  obtain ⟨m, -, h⟩ := (withOperand_cases i.operand work s).resolve_right fun ⟨hn, _⟩ => hop hn
  rw [PcAdvanced, h, advancePc_pc, hw, hlen]

/-- So does one that works on its effective address. -/
theorem pcAdvanced_withAddress {work : Word → State → State} (hw : ∀ addr, (work addr s).pc = s.pc) :
    PcAdvanced i s (withAddress i.operand work s) := by
  obtain ⟨hop, hlen⟩ := operand_of_memory_form hmode
  obtain ⟨addr, -, h⟩ := (withAddress_cases i.operand work s).resolve_right fun ⟨hn, _⟩ => hop hn
  rw [PcAdvanced, h, advancePc_pc, hw, hlen]

end MemoryForms

theorem pcAdvanced_of_implied {i : Instr} {s t : State} (hf : i.format = .imp) (ht : t.pc = s.pc) :
    PcAdvanced i s t := by
  rw [PcAdvanced, hf, ht]
  exact (BitVec.add_zero s.pc).symm

theorem format_of_isBranch {i : Instr} (h : isBranch i.mnemonic = true) : i.format = .rel := by
  cases i with
  | bcc | bcs | beq | bmi | bne | bpl | bvc | bvs => rfl
  | _ => cases h

/-- Every instruction but a taken branch leaves PC past its operand bytes (R133). -/
theorem exec_pcAdvanced (i : Instr) (s : State) (hnt : branchTaken i.mnemonic s = false) :
    ∃ t, exec i s = .next t ∧ PcAdvanced i s t := by
  obtain ⟨hmode, hm | hm | hm | hm | hm | ⟨hm, hacc⟩ | hm | hm | hm⟩ | ⟨rfl, he⟩ | ⟨hb, rel8, he⟩ | ⟨hf, -, f, -, he⟩ |
    ⟨hf, -, v, he⟩ | ⟨rfl, he⟩ := exec_cases i s
  · exact ⟨_, (exec_adc hm s).2, pcAdvanced_withOperand hmode fun _ => rfl⟩
  · exact ⟨_, (exec_cmp hm s).2, pcAdvanced_withOperand hmode fun _ => rfl⟩
  · exact ⟨_, (exec_cpx hm s).2, pcAdvanced_withOperand hmode fun _ => rfl⟩
  · exact ⟨_, (exec_cpy hm s).2, pcAdvanced_withOperand hmode fun _ => rfl⟩
  · exact ⟨_, (exec_and hm s).2, pcAdvanced_withOperand hmode fun _ => rfl⟩
  · exact ⟨_, (exec_asl hm hacc s).2, pcAdvanced_withAddress hmode fun _ => rfl⟩
  · exact ⟨_, (exec_bit hm s).2, pcAdvanced_withOperand hmode fun _ => rfl⟩
  · exact ⟨_, (exec_lda hm s).2, pcAdvanced_withOperand hmode fun _ => rfl⟩
  · exact ⟨_, (exec_sta hm s).2, pcAdvanced_withAddress hmode fun _ => rfl⟩
  · exact ⟨_, he, pcAdvanced_of_implied rfl rfl⟩
  · refine ⟨_, he, ?_⟩
    rw [PcAdvanced, hnt, format_of_isBranch hb]
    rfl
  · exact ⟨_, he, pcAdvanced_of_implied hf rfl⟩
  · exact ⟨_, he, pcAdvanced_of_implied hf rfl⟩
  · exact ⟨_, he, pcAdvanced_of_implied rfl rfl⟩

/-- Settles O28: the opcode byte is one, and the instruction advances PC past the rest of its bytes; the lengths are
those of the 67 rows. -/
theorem stepAdvancesPcByTheLength : Obligations.StepAdvancesPcByTheLength := by
  intro s i hr hi hnt
  refine ⟨?_, by cases i <;> rfl⟩
  obtain ⟨t, he, hpc⟩ := exec_pcAdvanced i (afterOpcode s) hnt
  refine ⟨t, (step_of_fetched hr hi).trans he, ?_⟩
  rw [hpc, afterOpcode_pc, encode_length, Instr.length, BitVec.ofNat_add]
  exact BitVec.add_assoc _ _ _

end Sys2Proof.Machine
end

section
/-! PROOFS. The addressing modes (spec/40_addressing_modes.md): the address of each mode in numbers, the sentinel,
and the operand of a fetched instruction. -/

namespace Sys2Proof

@[simp] theorem toNat_joinBytes (hi lo : Byte) : (joinBytes hi lo).toNat = hi.toNat * 256 + lo.toNat := by
  have := hi.isLt; have := lo.isLt
  rw [joinBytes, BitVec.toNat_ofNat]
  omega

/-- The bytes a memory operand is decoded from, the low byte of an address first (spec/30_encoding.md R82). -/
def Operand.bytes : Operand → List Byte
  | .immediate b | .zeroPage b | .zeroPageX b | .zeroPageY b | .indirectX b | .indirectY b => [b]
  | .absolute addr | .absoluteX addr | .absoluteY addr => [lowByte addr, highByte addr]
  | .none => []

/-- An instruction with a memory operand has the bytes of that operand; the implied, accumulator and relative rows
carry the sentinel, which has none (R113). -/
theorem operand_bytes_prefix (i : Instr) : i.operand.bytes <+: i.operandBytes := by
  cases i with
  | aslAcc | bcc | bcs | beq | bmi | bne | bpl | bvc | bvs | clc | cld | cli | clv | tax | inx | brk =>
    exact List.nil_prefix
  | _ => exact List.prefix_rfl

end Sys2Proof

namespace Sys2Proof.Machine

/-! ### Addresses in numbers (spec/00_scope.md R8, spec/20_memory.md R53, R54) -/

@[simp] theorem toNat_zext16 (b : Byte) : (zext16 b).toNat = b.toNat := by simp [zext16]

/-- A 16-bit base plus an index register wraps modulo 65536. -/
theorem toNat_add_zext16 (w : Word) (b : Byte) : (w + zext16 b).toNat = (w.toNat + b.toNat) % 65536 := by
  rw [BitVec.toNat_add, toNat_zext16]

theorem toNat_read16 (s : State) (addr : Word) :
    (read16 s addr).toNat = (memRead s (addr + 1)).toNat * 256 + (memRead s addr).toNat :=
  toNat_joinBytes _ _

/-- The second pointer byte is read at the next zero-page address, modulo 256. -/
theorem toNat_read16ZP (s : State) (p : Byte) :
    (read16ZP s p).toNat = (s.mem.read ((p.toNat + 1) % 256)).toNat * 256 + (s.mem.read p.toNat).toNat := by
  rw [read16ZP, toNat_joinBytes, memRead, memRead, toNat_zext16, toNat_zext16, BitVec.toNat_add]
  rfl

/-! ### The modes (R102 to R109) -/

/-- Settles O6: the operand byte zero-extended, and its 8-bit sum with the index. -/
theorem zeroPageModesResolve : Obligations.ZeroPageModesResolve := by
  intro s
  refine ⟨⟨_, rfl, toNat_zext16 _⟩, ⟨_, rfl, ?_⟩, ⟨_, rfl, ?_⟩, ?_⟩
  · rw [toNat_zext16, BitVec.toNat_add]
  · rw [toNat_zext16, BitVec.toNat_add]
  · simp [operandAt, operandLength]

/-- Settles O7: the little-endian word at PC, and its 16-bit sum with the index. -/
theorem absoluteModesResolve : Obligations.AbsoluteModesResolve := by
  intro s
  refine ⟨⟨_, rfl, toNat_read16 s s.pc⟩, ⟨_, rfl, ?_⟩, ⟨_, rfl, ?_⟩, ?_⟩
  · rw [toNat_add_zext16, toNat_read16]
  · rw [toNat_add_zext16, toNat_read16]
  · simp [operandAt, operandLength]

/-- Settles O8: X is added to the pointer in 8 bits, Y to the word read there in 16. -/
theorem indirectModesResolve : Obligations.IndirectModesResolve := by
  rintro s p q rfl rfl
  refine ⟨⟨_, rfl, ?_⟩, ⟨_, rfl, ?_⟩, ?_⟩
  · rw [toNat_read16ZP, BitVec.toNat_add]
  · rw [toNat_add_zext16, toNat_read16ZP]
  · simp [operandAt, operandLength]

/-! ### The sentinel (R110, spec/60_exceptions.md R202, R206) -/

theorem withOperand_none (work : Byte → State → State) (s : State) :
    withOperand .none work s = takeError .invalidAddressingMode s := rfl

theorem withAddress_none (work : Word → State → State) (s : State) :
    withAddress .none work s = takeError .invalidAddressingMode s := rfl

/-- Settles O9: each of the seven handlers has one of the two shapes, and both take the error. -/
theorem sentinelModeRaises : Obligations.SentinelModeRaises := by
  intro s r writesA
  refine ⟨rfl, rfl, ?_⟩
  simp only [List.forall_mem_cons]
  exact ⟨withOperand_none _ s, withOperand_none _ s, withOperand_none _ s, withAddress_none _ s,
    withOperand_none _ s, withOperand_none _ s, withAddress_none _ s, nofun⟩

/-! ### The operand of a fetched instruction (R112, spec/30_encoding.md R82) -/

theorem read16_of_bytes_prefix {addr b : Word} {s : State}
    (h : [lowByte addr, highByte addr] <+: [memRead s b, memRead s (b + 1)]) : read16 s b = addr := by
  obtain ⟨hlo, hhi⟩ : lowByte addr = memRead s b ∧ highByte addr = memRead s (b + 1) := by simpa using h
  rw [read16, ← hlo, ← hhi, joinBytes_high_low]

/-- An operand whose bytes lie at PC is the one its mode decodes there. -/
theorem operandAt_of_bytes_prefix {o : Operand} {s : State}
    (h : o.bytes <+: [memRead s s.pc, memRead s (s.pc + 1)]) : operandAt o.mode s = o := by
  cases o with
  | none => rfl
  | absolute addr | absoluteX addr | absoluteY addr =>
    obtain rfl := read16_of_bytes_prefix h
    rfl
  | _ b =>
    obtain rfl : b = memRead s s.pc := (List.cons_prefix_cons.1 h).1
    rfl

/-- The operand bytes of a fetched instruction lie at PC where its handler runs. -/
theorem operandBytes_prefix_of_fetchInstr {s : State} {i : Instr} (h : fetchInstr s = .ok i) :
    i.operandBytes <+:
      [memRead (afterOpcode s) (afterOpcode s).pc, memRead (afterOpcode s) ((afterOpcode s).pc + 1)] := by
  have hpc : s.pc + 1 + 1 = s.pc + 2 := BitVec.add_assoc _ _ _
  obtain ⟨-, hb⟩ := decodeInstr_ok h
  rw [hb, afterOpcode_pc, hpc]
  exact List.take_prefix _ _

/-- The operand byte of the operand at PC is the byte of memory at its address, in every mode: that of Immediate is
the byte at PC itself (R101). -/
theorem operandValue_operandAt (m : Mode) (s : State) :
    operandValue (operandAt m s) s = (resolve m s).map (memRead s) := by
  cases m <;> rfl

/-- Settles O10: the fetched bytes are the ones at PC, so the carried operand is the one the resolver decodes there. -/
theorem fetchedOperandIsTheResolvedByte : Obligations.FetchedOperandIsTheResolvedByte := by
  intro s i h
  have hop : operandAt i.mode (afterOpcode s) = i.operand :=
    operandAt_of_bytes_prefix ((operand_bytes_prefix i).trans (operandBytes_prefix_of_fetchInstr h))
  refine ⟨hop, by rw [resolve, hop], ?_⟩
  calc operandValue i.operand (afterOpcode s)
      = (resolve i.mode (afterOpcode s)).map (memRead (afterOpcode s)) := by rw [← operandValue_operandAt, hop]
    _ = (resolve i.mode (afterOpcode s)).map (memRead s) := rfl

end Sys2Proof.Machine
end

section
/-! PROOFS. The ALU helpers (spec/41_alu_helpers.md): the signed reading of ADC's overflow, and Zero and Negative after
`update_zn`. -/

namespace Sys2Proof.Machine

/-! ### The signed reading of ADC (R126) -/

theorem toNat_adcResult (old m : Byte) (c : Bool) :
    (adcResult old m c).toNat = (old.toNat + m.toNat + c.toNat) % 256 :=
  BitVec.toNat_ofNat _ _

theorem and_0x80_ne_zero_iff (v : Byte) : v &&& 0x80 ≠ 0 ↔ v.msb = true := by
  have hbit : v &&& 0x80 = if v.getLsbD 7 then 0x80 else 0 := BitVec.and_twoPow v 7
  rw [hbit, BitVec.msb_eq_getLsbD_last]
  cases v.getLsbD 7 <;> decide

/-- The formula of R122 in signs: the result's sign differs from that of the operand and from that of A. -/
theorem adcOverflow_iff_signs (old m : Byte) (c : Bool) :
    adcOverflow old m c = true ↔ m.msb ≠ (adcResult old m c).msb ∧ (adcResult old m c).msb ≠ old.msb := by
  rw [adcOverflow, decide_eq_true_iff, and_0x80_ne_zero_iff]
  simp only [BitVec.msb_and, BitVec.msb_xor, Bool.and_eq_true, bne_iff_ne]

theorem msb_ne_msb_iff (v w : Byte) : v.msb ≠ w.msb ↔ ¬ (128 ≤ v.toNat ↔ 128 ≤ w.toNat) := by
  rw [BitVec.msb_eq_decide, BitVec.msb_eq_decide, ne_eq, decide_eq_decide]

/-- The two readings of the overflow agree (R126): the signed sum and the 8-bit result are compared for each choice of
the operands' signs (the classes of R125). -/
theorem adcOverflow_iff_signed_overflow (old m : Byte) (c : Bool) :
    adcOverflow old m c = true ↔
      signedByte old + signedByte m + c.toNat < -128 ∨ 127 < signedByte old + signedByte m + c.toNat := by
  have hold := old.isLt
  have hm := m.isLt
  have hc := c.toNat_le
  rw [adcOverflow_iff_signs, msb_ne_msb_iff, msb_ne_msb_iff, toNat_adcResult, signedByte, signedByte]
  split <;> split <;> omega

/-! ### Handlers with a memory operand (spec/40_addressing_modes.md R112) -/

/-- A row that reads its operand has an operand byte, and its handler works on that byte. -/
theorem withOperand_of_memory_form {i : Instr} (hmode : i.mode ≠ .none) (work : Byte → State → State) (s : State) :
    ∃ m, operandValue i.operand s = some m ∧
      withOperand i.operand work s = advancePc (operandLength i.operand) (work m s) := by
  obtain ⟨hop, -⟩ := operand_of_memory_form hmode
  exact (withOperand_cases i.operand work s).resolve_right fun ⟨hn, _⟩ => hop hn

/-- So has a row that works on its effective address. -/
theorem withAddress_of_memory_form {i : Instr} (hmode : i.mode ≠ .none) (work : Word → State → State) (s : State) :
    ∃ addr, effectiveAddress i.operand s = some addr ∧
      withAddress i.operand work s = advancePc (operandLength i.operand) (work addr s) := by
  obtain ⟨hop, -⟩ := operand_of_memory_form hmode
  exact (withAddress_cases i.operand work s).resolve_right fun ⟨hn, _⟩ => hop hn

/-- Settles O12: the flag is the formula of R122 on A, the operand and the carry, which is the signed overflow. -/
theorem adcOverflowIsSignedOverflow : Obligations.AdcOverflowIsSignedOverflow := by
  intro i s hadc
  obtain ⟨hmode, hex⟩ := exec_adc hadc s
  obtain ⟨m, hm, ht⟩ := withOperand_of_memory_form hmode addWithCarry s
  refine ⟨m, _, hm, hex, ?_⟩
  rw [adcHandler, ht, flag_advancePc, flag_addWithCarry]
  exact adcOverflow_iff_signed_overflow s.a m (s.flag .carry)

/-! ### Zero and Negative (R120) -/

/-- The status byte is one that `update_zn` has just written. -/
def StatusFromUpdateZN (t : State) : Prop := ∃ v u, t.p = (updateZN v u).p

/-- Zero says that the byte is 0, and then its bit 7 is clear (R120). -/
theorem StatusFromUpdateZN.not_zero_and_negative {t : State} (ht : StatusFromUpdateZN t) :
    ¬ (t.flag .zero = true ∧ t.flag .negative = true) := by
  obtain ⟨v, u, hp⟩ := ht
  have hz : t.flag .zero = decide (v = 0) := (flag_congr hp _).trans (flag_updateZN v u .zero)
  have hn : t.flag .negative = v.getLsbD 7 := (flag_congr hp _).trans (flag_updateZN v u .negative)
  rw [hz, hn, decide_eq_true_iff]
  rintro ⟨rfl, h⟩
  cases h

section MemoryForms

variable {i : Instr} {s : State}

/-- A row whose handler reads a memory operand, and whose work on the byte ends in `update_zn`. -/
theorem exec_statusFromUpdateZN_of_withOperand {work : Byte → State → State}
    (h : i.mode ≠ .none ∧ exec i s = .next (withOperand i.operand work s)) (hw : ∀ m, StatusFromUpdateZN (work m s)) :
    ∃ t, exec i s = .next t ∧ StatusFromUpdateZN t := by
  obtain ⟨hmode, he⟩ := h
  obtain ⟨m, -, ht⟩ := withOperand_of_memory_form hmode work s
  exact ⟨_, he.trans (congrArg _ ht), hw m⟩

/-- A row whose handler works on its effective address, and whose work there ends in `update_zn`. -/
theorem exec_statusFromUpdateZN_of_withAddress {work : Word → State → State}
    (h : i.mode ≠ .none ∧ exec i s = .next (withAddress i.operand work s))
    (hw : ∀ addr, StatusFromUpdateZN (work addr s)) : ∃ t, exec i s = .next t ∧ StatusFromUpdateZN t := by
  obtain ⟨hmode, he⟩ := h
  obtain ⟨addr, -, ht⟩ := withAddress_of_memory_form hmode work s
  exact ⟨_, he.trans (congrArg _ ht), hw addr⟩

end MemoryForms

theorem eq_tax_of_mnemonic {i : Instr} (h : i.mnemonic = .tax) : i = .tax := by
  cases i with
  | tax => rfl
  | _ => cases h

theorem eq_inx_of_mnemonic {i : Instr} (h : i.mnemonic = .inx) : i = .inx := by
  cases i with
  | inx => rfl
  | _ => cases h

/-- Each of the nine mnemonics completes, and writes the status byte last through `update_zn`. -/
theorem exec_statusFromUpdateZN {i : Instr} (s : State)
    (h : i.mnemonic ∈ [.adc, .and, .asl, .cmp, .cpx, .cpy, .lda, .tax, .inx]) :
    ∃ t, exec i s = .next t ∧ StatusFromUpdateZN t := by
  simp only [List.mem_cons, List.not_mem_nil, or_false] at h
  obtain hm | hm | hm | hm | hm | hm | hm | hm | hm := h
  · exact exec_statusFromUpdateZN_of_withOperand (exec_adc hm s) fun _ => ⟨_, _, rfl⟩
  · exact exec_statusFromUpdateZN_of_withOperand (exec_and hm s) fun _ => ⟨_, _, rfl⟩
  · by_cases hacc : i = .aslAcc
    · subst hacc
      exact ⟨shiftA s, rfl, _, _, rfl⟩
    · exact exec_statusFromUpdateZN_of_withAddress (exec_asl hm hacc s) fun _ => ⟨_, _, rfl⟩
  · exact exec_statusFromUpdateZN_of_withOperand (exec_cmp hm s) fun _ => ⟨_, _, rfl⟩
  · exact exec_statusFromUpdateZN_of_withOperand (exec_cpx hm s) fun _ => ⟨_, _, rfl⟩
  · exact exec_statusFromUpdateZN_of_withOperand (exec_cpy hm s) fun _ => ⟨_, _, rfl⟩
  · exact exec_statusFromUpdateZN_of_withOperand (exec_lda hm s) fun _ => ⟨_, _, rfl⟩
  · obtain rfl := eq_tax_of_mnemonic hm
    exact ⟨setX (pass s.a) s, rfl, _, _, rfl⟩
  · obtain rfl := eq_inx_of_mnemonic hm
    exact ⟨setX (inc8 s.x) s, rfl, _, _, rfl⟩

/-- Settles O30: the two flags are those `update_zn` has just written, from one byte. -/
theorem zeroAndNegativeNeverBothSet : Obligations.ZeroAndNegativeNeverBothSet := by
  intro i s h
  obtain ⟨t, he, ht⟩ := exec_statusFromUpdateZN s h
  exact ⟨t, he, ht.not_zero_and_negative⟩

end Sys2Proof.Machine
end

section
/-! PROOFS. The dispatch (spec/42_dispatch_fsm.md): what no handler touches, when a step is enabled and what it
decodes, its accesses to memory, a run under a budget, and the placing of one instruction. -/

namespace Sys2Proof.Machine

/-! ### What no handler touches (R134, R141) -/

/-- Settles O29: an ordinary instruction leaves all of it alone; CLD and CLI each write one flag, the halt `fsm`. -/
theorem handlersLeaveTheRestAlone : Obligations.HandlersLeaveTheRestAlone := by
  intro i s
  obtain ⟨g, hg, he⟩ | rfl | rfl | rfl := actsOrdinarily_or_cld_cli_brk i
  · have hflag {f : Flag} (hf : f.Inert) : (g s).flag f = s.flag f := hg.flag_inert hf s
    exact ⟨g s, he s, hg.y s, hg.err s, fun _ => hg.fsm s, fun _ => hflag (by decide), fun _ => hflag (by decide),
      hflag (by decide), hflag (by decide)⟩
  · have hflag {f : Flag} (hf : f ≠ .decimal) : (clearFlag .decimal s).flag f = s.flag f := flag_setFlag_ne _ s hf
    exact ⟨_, rfl, rfl, rfl, fun _ => rfl, fun _ => hflag (by decide), absurd rfl, hflag (by decide),
      hflag (by decide)⟩
  · have hflag {f : Flag} (hf : f ≠ .interruptDisable) : (clearFlag .interruptDisable s).flag f = s.flag f :=
      flag_setFlag_ne _ s hf
    exact ⟨_, rfl, rfl, rfl, fun _ => rfl, absurd rfl, fun _ => hflag (by decide), hflag (by decide),
      hflag (by decide)⟩
  · exact ⟨halt s, rfl, rfl, rfl, absurd rfl, fun _ => rfl, fun _ => rfl, rfl, rfl⟩

/-- Every instruction answers a next state, and all but the halt let the run go on. -/
theorem exec_completes (i : Instr) (s : State) : ∃ t, exec i s = .next t ∧ (i ≠ .brk → t.fsm = s.fsm) := by
  obtain ⟨t, he, -, -, hfsm, -⟩ := handlersLeaveTheRestAlone i s
  exact ⟨t, he, hfsm⟩

/-- Settles O24: the arm of BRK is the halt, and a zero byte is BRK whatever follows it. -/
theorem haltOpcodeOnlyHalts : Obligations.HaltOpcodeOnlyHalts :=
  fun _ => ⟨rfl, step_of_zero_byte⟩

/-! ### The step (R132, R135) -/

/-- Settles O25: the three bytes are those that the step fetches. -/
theorem stepRunsTheDecodedInstruction : Obligations.StepRunsTheDecodedInstruction :=
  fun _ _ => step_of_fetched

/-- Settles O26: a byte without a row takes the unknown-opcode stop, written out field by field. -/
theorem unknownOpcodeStopsTheRun : Obligations.UnknownOpcodeStopsTheRun :=
  fun _ => step_of_unknown_opcode

/-- A step of a run in progress always answers: no instruction stops without a next state, and an unknown opcode
does not either. -/
theorem step_completes {s : State} (hr : s.fsm = .running) : ∃ t, step s = .next t := by
  obtain ⟨-, i, -, he⟩ | ⟨-, -, he⟩ | ⟨hnr, -⟩ := step_cases s
  · obtain ⟨t, ht, -⟩ := exec_completes i (afterOpcode s)
    exact ⟨t, he.trans ht⟩
  · exact ⟨_, he⟩
  · exact absurd hr hnr

theorem step_of_not_running {s : State} (hnr : s.fsm ≠ .running) : step s = .fault .notRunning := by
  obtain ⟨hr, -⟩ | ⟨hr, -⟩ | ⟨-, he⟩ := step_cases s
  · exact absurd hr hnr
  · exact absurd hr hnr
  · exact he

/-- Settles O27: a running block always steps, and one that steps was running. -/
theorem stepEnabledExactlyWhileRunning : Obligations.StepEnabledExactlyWhileRunning :=
  fun _ => ⟨⟨fun ⟨_, h⟩ => (step_next_cases h).1, step_completes⟩, step_of_not_running⟩

/-- At a byte of the opcode map other than the halt the run goes on: the fetched instruction is not BRK, whose opcode
byte is 0. -/
theorem step_keeps_running {s : State} (hr : s.fsm = .running) (hz : memRead s s.pc ≠ 0)
    (hk : decodeOpcode (memRead s s.pc) ≠ none) : ∃ t, step s = .next t ∧ t.fsm = .running := by
  obtain ⟨-, i, hi, he⟩ | ⟨-, hn, -⟩ | ⟨hnr, -⟩ := step_cases s
  · have hbrk : i ≠ .brk := by
      rintro rfl
      exact hz (decodeInstr_ok hi).1.symm
    obtain ⟨t, ht, hfsm⟩ := exec_completes i (afterOpcode s)
    exact ⟨t, he.trans ht, (hfsm hbrk).trans hr⟩
  · exact absurd ((decodeOpcode_eq_none_iff _).2 hn) hk
  · exact absurd hr hnr

/-! ### The `Run` command (R131) -/

/-- Settles O45: `Run` is refused only while a run is in progress, and its effect is the start of one. -/
theorem runOnlyStartsTheRun : Obligations.RunOnlyStartsTheRun := by
  intro s hnr
  have haccepted : commandRefusal .run s = none := if_neg hnr
  rw [command, haccepted]
  rfl

/-! ### The accesses of a step (R139, spec/20_memory.md R55)

The reads around an instruction do nothing to memory, and its one write, if it has one, is the one in its list. -/

/-- What the writes among some accesses make of a memory: there is none and it is unchanged, or there is one and it
is that write. -/
def AccountsFor (writes : List Access) (before after : Memory) : Prop :=
  (writes = [] ∧ after = before) ∨ ∃ addr v, writes = [.write addr v] ∧ after = before.write addr.toNat v

theorem AccountsFor.length_le_one {writes : List Access} {before after : Memory}
    (h : AccountsFor writes before after) : writes.length ≤ 1 := by
  obtain ⟨rfl, -⟩ | ⟨_, _, rfl, -⟩ := h
  · exact Nat.zero_le 1
  · exact Nat.le_refl 1

theorem AccountsFor.foldl_apply {writes : List Access} {before after : Memory}
    (h : AccountsFor writes before after) : after = writes.foldl Access.apply before := by
  obtain ⟨rfl, rfl⟩ | ⟨_, _, rfl, rfl⟩ := h
  · rfl
  · rfl

/-- Of a list of accesses only the writes act on memory (spec/20_memory.md R52). -/
theorem foldl_apply_filter_isWrite (accesses : List Access) (m : Memory) :
    (accesses.filter Access.isWrite).foldl Access.apply m = accesses.foldl Access.apply m := by
  induction accesses generalizing m with
  | nil => rfl
  | cons access rest ih =>
    cases access with
    | read addr => exact ih m
    | write addr v => exact ih (m.write addr.toNat v)

theorem filter_isWrite_operandReads (f : Format) (s : State) : (operandReads f s).filter Access.isWrite = [] := by
  cases f <;> rfl

theorem filter_isWrite_pointerReads (o : Operand) (s : State) : (pointerReads o s).filter Access.isWrite = [] := by
  cases o <;> rfl

/-- The writes of an instruction are those on its operand. -/
theorem filter_isWrite_instrAccesses (i : Instr) (s : State) :
    (instrAccesses i s).filter Access.isWrite =
      (dataAccesses i.mnemonic i.operand s).filter Access.isWrite := by
  simp [instrAccesses, List.filter_append, filter_isWrite_operandReads, filter_isWrite_pointerReads]

/-- Only STA and ASL write to memory. -/
theorem filter_isWrite_dataAccesses {m : Mnemonic} (hsta : m ≠ .sta) (hasl : m ≠ .asl) (o : Operand) (s : State) :
    (dataAccesses m o s).filter Access.isWrite = [] := by
  unfold dataAccesses
  split
  · rfl
  · rfl
  · split
    · exact absurd rfl hsta
    · exact absurd rfl hasl
    · rfl

theorem dataAccesses_sta {o : Operand} {s : State} {addr : Word} (himm : o.mode ≠ .immediate)
    (ha : effectiveAddress o s = some addr) : dataAccesses .sta o s = [.write addr s.a] := by
  unfold dataAccesses
  cases o <;> simp_all [Operand.mode]

theorem dataAccesses_asl {o : Operand} {s : State} {addr : Word} (himm : o.mode ≠ .immediate)
    (ha : effectiveAddress o s = some addr) :
    dataAccesses .asl o s = [.read addr, .write addr (asl8 (memRead s addr))] := by
  unfold dataAccesses
  cases o <;> simp_all [Operand.mode]

/-- An implied or a relative row carries the sentinel (spec/40_addressing_modes.md R113). -/
theorem operand_eq_none_of_format {i : Instr} (h : i.format = .imp ∨ i.format = .rel) : i.operand = .none := by
  cases i with
  | aslAcc | bcc | bcs | beq | bmi | bne | bpl | bvc | bvs | clc | cld | cli | clv | tax | inx | brk => rfl
  | _ => exact absurd h (by simp [Instr.format])

/-- There is no Immediate form of the two mnemonics that write to memory (R162, R191). -/
theorem operand_not_immediate {i : Instr} (h : i.mnemonic = .sta ∨ i.mnemonic = .asl) :
    i.operand.mode ≠ .immediate := by
  cases i with
  | staZp | staZpX | staAbs | staAbsX | staAbsY | staIndX | staIndY => exact Mode.noConfusion
  | aslAcc | aslZp | aslZpX | aslAbs | aslAbsX => exact Mode.noConfusion
  | _ => exact absurd h (by simp [Instr.mnemonic])

/-- The writes in an instruction's access list account for what it does to memory between two states. -/
def InstrAccountsFor (i : Instr) (s t : State) : Prop :=
  AccountsFor ((instrAccesses i s).filter Access.isWrite) s.mem t.mem

theorem instrAccountsFor_of_no_operand {i : Instr} {s t : State} (hf : i.format = .imp ∨ i.format = .rel)
    (hmem : t.mem = s.mem) : InstrAccountsFor i s t := by
  refine .inl ⟨?_, hmem⟩
  rw [filter_isWrite_instrAccesses, operand_eq_none_of_format hf]
  rfl

/-- A row that reads its operand and leaves memory alone. -/
theorem instrAccountsFor_withOperand {i : Instr} {s : State} {work : Byte → State → State} {m : Mnemonic}
    (hmode : i.mode ≠ .none) (hm : i.mnemonic = m) (hsta : m ≠ .sta) (hasl : m ≠ .asl)
    (hw : ∀ v, (work v s).mem = s.mem) : InstrAccountsFor i s (withOperand i.operand work s) := by
  obtain ⟨v, -, ht⟩ := withOperand_of_memory_form hmode work s
  refine .inl ⟨?_, ?_⟩
  · rw [filter_isWrite_instrAccesses, filter_isWrite_dataAccesses (hm ▸ hsta) (hm ▸ hasl)]
  · rw [ht, advancePc_mem, hw]

/-- STA writes A to its effective address (R191). -/
theorem instrAccountsFor_sta {i : Instr} (hmode : i.mode ≠ .none) (hm : i.mnemonic = .sta) (s : State) :
    InstrAccountsFor i s (staHandler i.operand s) := by
  obtain ⟨addr, ha, ht⟩ := withAddress_of_memory_form hmode (fun addr t => memWrite addr t.a t) s
  refine .inr ⟨addr, s.a, ?_, ?_⟩
  · rw [filter_isWrite_instrAccesses, hm, dataAccesses_sta (operand_not_immediate (.inl hm)) ha]
    rfl
  · rw [staHandler, ht]
    rfl

/-- ASL of memory writes the shifted byte where it has read it (R162). -/
theorem instrAccountsFor_asl {i : Instr} (hmode : i.mode ≠ .none) (hm : i.mnemonic = .asl) (s : State) :
    InstrAccountsFor i s (aslHandler i.operand s) := by
  obtain ⟨addr, ha, ht⟩ := withAddress_of_memory_form hmode shiftMem s
  refine .inr ⟨addr, asl8 (memRead s addr), ?_, ?_⟩
  · rw [filter_isWrite_instrAccesses, hm, dataAccesses_asl (operand_not_immediate (.inr hm)) ha]
    rfl
  · rw [aslHandler, ht]
    rfl

theorem exec_instrAccountsFor (i : Instr) (s : State) : ∃ t, exec i s = .next t ∧ InstrAccountsFor i s t := by
  obtain ⟨hmode, hm | hm | hm | hm | hm | ⟨hm, hacc⟩ | hm | hm | hm⟩ | ⟨rfl, he⟩ | ⟨hb, rel8, he⟩ | ⟨hf, -, f, -, he⟩ |
    ⟨hf, -, v, he⟩ | ⟨rfl, he⟩ := exec_cases i s
  · exact ⟨_, (exec_adc hm s).2, instrAccountsFor_withOperand hmode hm nofun nofun fun _ => rfl⟩
  · exact ⟨_, (exec_cmp hm s).2, instrAccountsFor_withOperand hmode hm nofun nofun fun _ => rfl⟩
  · exact ⟨_, (exec_cpx hm s).2, instrAccountsFor_withOperand hmode hm nofun nofun fun _ => rfl⟩
  · exact ⟨_, (exec_cpy hm s).2, instrAccountsFor_withOperand hmode hm nofun nofun fun _ => rfl⟩
  · exact ⟨_, (exec_and hm s).2, instrAccountsFor_withOperand hmode hm nofun nofun fun _ => rfl⟩
  · exact ⟨_, (exec_asl hm hacc s).2, instrAccountsFor_asl hmode hm s⟩
  · exact ⟨_, (exec_bit hm s).2, instrAccountsFor_withOperand hmode hm nofun nofun fun _ => rfl⟩
  · exact ⟨_, (exec_lda hm s).2, instrAccountsFor_withOperand hmode hm nofun nofun fun _ => rfl⟩
  · exact ⟨_, (exec_sta hm s).2, instrAccountsFor_sta hmode hm s⟩
  · exact ⟨_, he, instrAccountsFor_of_no_operand (.inl rfl) rfl⟩
  · exact ⟨_, he, instrAccountsFor_of_no_operand (.inr (format_of_isBranch hb)) (by rw [branchIf_eq])⟩
  · exact ⟨_, he, instrAccountsFor_of_no_operand (.inl hf) rfl⟩
  · exact ⟨_, he, instrAccountsFor_of_no_operand (.inl hf) rfl⟩
  · exact ⟨_, he, instrAccountsFor_of_no_operand (.inl rfl) rfl⟩

/-- The list of a step is the opcode read and the accesses of what it runs (R139); the unknown-opcode stop has no
others. -/
theorem step_accesses {s t : State} (h : step s = .next t) :
    ∃ rest, stepAccesses s = .read s.pc :: rest ∧ AccountsFor (rest.filter Access.isWrite) s.mem t.mem := by
  obtain ⟨hr, i, hi, he⟩ | ⟨hr, hn, he⟩ | ⟨-, he⟩ := step_cases s
  · obtain ⟨u, hu, hacc⟩ := exec_instrAccountsFor i (afterOpcode s)
    obtain rfl : u = t := Host.Outcome.next.inj (hu.symm.trans (he.symm.trans h))
    exact ⟨instrAccesses i (afterOpcode s), by simp [stepAccesses, hr, hi], hacc⟩
  · have hi : fetchInstr s = .error (.unknownOpcode (memRead s s.pc)) := decodeInstr_error_iff.2 ⟨hn, rfl⟩
    cases he.symm.trans h
    exact ⟨[], by simp [stepAccesses, hr, hi], .inl ⟨rfl, rfl⟩⟩
  · cases he.symm.trans h

/-- Settles O32: after the opcode read the writes of the list are those of the instruction, and the reads among them
do nothing. -/
theorem stepAccessesAccountForMemory : Obligations.StepAccessesAccountForMemory := by
  intro s t h
  obtain ⟨rest, hlist, hacc⟩ := step_accesses h
  rw [hlist, ← foldl_apply_filter_isWrite]
  exact ⟨rfl, hacc.length_le_one, hacc.foldl_apply⟩

/-! ### A run under a budget (R136 to R138) -/

/-- What a run that ended in an outcome becomes with `n` more steps in its budget: it goes on from where it was cut,
and an outcome that was reached stays. -/
def RunOutcome.resume (n : Nat) : RunOutcome → RunOutcome
  | .exhausted t => runFor n t
  | outcome => outcome

theorem outcomeOf_running {s : State} (hr : s.fsm = .running) : outcomeOf s = .exhausted s := by
  simp [outcomeOf, hr]

theorem resume_outcomeOf (n : Nat) (s : State) : (outcomeOf s).resume n = runFor n s := by
  by_cases hr : s.fsm = .running
  · rw [outcomeOf_running hr]
    rfl
  · rw [runFor_of_not_running n hr]
    cases hf : s.fsm with
    | running => exact absurd hf hr
    | idle | halted | faulted => simp [outcomeOf, hf, RunOutcome.resume]

/-- A run takes the first part of its budget and then the rest. -/
theorem runFor_add (k n : Nat) (s : State) : runFor (k + n) s = (runFor k s).resume n := by
  induction k generalizing s with
  | zero => rw [Nat.zero_add, runFor, resume_outcomeOf]
  | succ k ih =>
    by_cases hr : s.fsm = .running
    · obtain ⟨t, ht⟩ := step_completes hr
      rw [Nat.add_right_comm, runFor_succ_of_step _ hr ht, runFor_succ_of_step _ hr ht, ih]
    · rw [runFor_of_not_running _ hr, runFor_of_not_running _ hr, resume_outcomeOf, runFor_of_not_running _ hr]

/-- The three things a step of a run can do: it halts, it faults, or the run goes on (R136). -/
theorem step_of_running_cases {s : State} (hr : s.fsm = .running) :
    step s = .next (halt (afterOpcode s)) ∨ step s = .next (unknownOpcodeStop s) ∨
      ∃ t, step s = .next t ∧ t.fsm = .running := by
  by_cases hz : memRead s s.pc = 0
  · exact .inl (step_of_zero_byte hr hz)
  · by_cases hn : decodeOpcode (memRead s s.pc) = none
    · exact .inr (.inl (step_of_unknown_opcode hr hn))
    · exact .inr (.inr (step_keeps_running hr hz hn))

theorem runFor_of_halt (k : Nat) {s : State} (hr : s.fsm = .running) (h : step s = .next (halt (afterOpcode s))) :
    runFor (k + 1) s = .halted (halt (afterOpcode s)) := by
  rw [runFor_succ_of_step k hr h, runFor_of_not_running k (by simp)]
  rfl

theorem runFor_of_unknownOpcodeStop (k : Nat) {s : State} (hr : s.fsm = .running)
    (h : step s = .next (unknownOpcodeStop s)) : runFor (k + 1) s = .faulted (unknownOpcodeStop s) := by
  rw [runFor_succ_of_step k hr h, runFor_of_not_running k (by simp [unknownOpcodeStop])]
  rfl

/-- Settles O47, by induction on the budget: the first step ends the run in one of two ways or leaves it to the
rest. -/
theorem runOutcomeMatchesTheFinalState : Obligations.RunOutcomeMatchesTheFinalState := by
  intro budget
  induction budget with
  | zero => exact fun s hr => ⟨s, .inr (.inr ⟨outcomeOf_running hr, hr⟩)⟩
  | succ k ih =>
    intro s hr
    obtain h | h | ⟨t, h, ht⟩ := step_of_running_cases hr
    · exact ⟨_, .inl ⟨runFor_of_halt k hr h, rfl⟩⟩
    · exact ⟨_, .inr (.inl ⟨runFor_of_unknownOpcodeStop k hr h, rfl, nofun⟩)⟩
    · rw [runFor_succ_of_step k hr h]
      exact ih t ht

/-- Settles O48: the laws of a larger budget are those of a budget spent in two parts, and the rest is the first step
of a run. -/
theorem largerBudgetKeepsTheOutcome : Obligations.LargerBudgetKeepsTheOutcome := by
  intro k n s t
  refine ⟨fun h => ?_, fun h => ?_, fun h => ?_, fun hr => ⟨outcomeOf_running hr, fun u hu => ?_, fun hz => ?_,
    fun hn => ?_, fun hz hk => ?_⟩⟩
  · rw [runFor_add, h]
    rfl
  · rw [runFor_add, h]
    rfl
  · rw [runFor_add, h]
    rfl
  · exact runFor_succ_of_step k hr hu
  · exact runFor_of_halt k hr (step_of_zero_byte hr hz)
  · exact runFor_of_unknownOpcodeStop k hr (step_of_unknown_opcode hr hn)
  · obtain ⟨u, hu, hrun⟩ := step_keeps_running hr hz hk
    exact ⟨u, hu, hrun, runFor_succ_of_step k hr hu⟩

/-! ### Bytes written in a row (spec/70_reset_and_hazards.md R221) -/

theorem add_ofNat_succ (addr : Word) (k : Nat) : addr + BitVec.ofNat 16 (k + 1) = addr + 1 + BitVec.ofNat 16 k := by
  rw [Nat.add_comm, BitVec.ofNat_add]
  exact (BitVec.add_assoc _ _ _).symm

/-- An address that none of the bytes is written to reads as before. -/
theorem Memory.read_writeBytes_of_ne {bytes : List Byte} {addr b : Word} (m : Memory)
    (h : ∀ k < bytes.length, b ≠ addr + BitVec.ofNat 16 k) :
    (m.writeBytes addr bytes).read b.toNat = m.read b.toNat := by
  induction bytes generalizing m addr with
  | nil => rfl
  | cons v rest ih =>
    have hhead : addr ≠ b := fun he => h 0 (Nat.succ_pos _) (he.symm.trans (BitVec.add_zero addr).symm)
    have htail : ∀ k < rest.length, b ≠ addr + 1 + BitVec.ofNat 16 k := fun k hk =>
      add_ofNat_succ addr k ▸ h (k + 1) (Nat.succ_lt_succ hk)
    calc ((m.write addr.toNat v).writeBytes (addr + 1) rest).read b.toNat
        = (m.write addr.toNat v).read b.toNat := ih _ htail
      _ = m.read b.toNat := Memory.read_write_ne m v fun he => hhead (BitVec.eq_of_toNat_eq he)

/-- Each byte is read back where it was written, if the addresses do not come round to it again. -/
theorem Memory.read_writeBytes {bytes : List Byte} {m : Memory} (addr : Word) (hwf : m.wf = true)
    (hlen : bytes.length ≤ 65536) {k : Nat} (hk : k < bytes.length) :
    (m.writeBytes addr bytes).read (addr + BitVec.ofNat 16 k).toNat = bytes[k] := by
  induction bytes generalizing m addr k with
  | nil => exact absurd hk (Nat.not_lt_zero k)
  | cons v rest ih =>
    have hwf' : (m.write addr.toNat v).wf = true := Memory.wf_write addr v hwf
    have hlen' : rest.length + 1 ≤ 65536 := hlen
    cases k with
    | zero =>
      have hlater : ∀ j < rest.length, addr ≠ addr + 1 + BitVec.ofNat 16 j := by
        intro j hj he
        rw [← add_ofNat_succ, BitVec.self_eq_add_right] at he
        have hzero : (j + 1) % 65536 = 0 := congrArg BitVec.toNat he
        omega
      have haddr : addr + BitVec.ofNat 16 0 = addr := BitVec.add_zero addr
      rw [haddr]
      calc ((m.write addr.toNat v).writeBytes (addr + 1) rest).read addr.toNat
          = (m.write addr.toNat v).read addr.toNat := Memory.read_writeBytes_of_ne _ hlater
        _ = v := Memory.read_write_self v hwf
    | succ j =>
      rw [add_ofNat_succ]
      exact ih (addr + 1) hwf' (Nat.le_of_succ_le hlen') (Nat.lt_of_succ_lt_succ hk)

/-! ### The placing of one instruction (log 3) -/

theorem decodeTableWord_eq_some {nbits w : Nat} {i : Instr} (h : decodeTableWord nbits w = some i) :
    decodeInstr (byteAt (w % 2 ^ nbits) 0) (byteAt (w % 2 ^ nbits) 1) (byteAt (w % 2 ^ nbits) 2) = .ok i := by
  unfold decodeTableWord at h
  cases hd : decodeInstr (byteAt (w % 2 ^ nbits) 0) (byteAt (w % 2 ^ nbits) 1) (byteAt (w % 2 ^ nbits) 2) with
  | ok j => simpa [hd] using h
  | error e => simp [hd] at h

/-- The bytes of a placed word lie at PC and at the two addresses after it. -/
theorem memRead_withFetchWord {s : State} (hwf : s.mem.wf = true) (nbits w : Nat) {k : Nat} (hk : k < 3) :
    memRead (s.withFetchWord nbits w) (s.pc + BitVec.ofNat 16 k) = byteAt (w % 2 ^ nbits) k := by
  refine (Memory.read_writeBytes s.pc hwf (by simp) hk).trans ?_
  obtain rfl | rfl | rfl : k = 0 ∨ k = 1 ∨ k = 2 := by omega
  · rfl
  · rfl
  · rfl

theorem fetchInstr_withFetchWord {s : State} {nbits w : Nat} {i : Instr} (hwf : s.mem.wf = true)
    (h : decodeTableWord nbits w = some i) : fetchInstr (s.withFetchWord nbits w) = .ok i := by
  have h0 := memRead_withFetchWord hwf nbits w (k := 0) (by decide)
  have h1 := memRead_withFetchWord hwf nbits w (k := 1) (by decide)
  have h2 := memRead_withFetchWord hwf nbits w (k := 2) (by decide)
  rw [← decodeTableWord_eq_some h, ← h0, ← h1, ← h2, BitVec.add_zero]
  rfl

/-- Settles O50: the word's bytes are the ones fetched, and the placing has started the run. -/
theorem placedWordIsTheNextInstruction : Obligations.PlacedWordIsTheNextInstruction := by
  intro s nbits w i hwf h
  have hr : (s.withFetchWord nbits w).fsm = .running := rfl
  exact ⟨step_of_fetched hr (fetchInstr_withFetchWord hwf h), step_completes hr⟩

end Sys2Proof.Machine
end

section
/-! PROOFS. Add with carry and the compares (spec/43_arithmetic_compare.md): result, flags, completion and frame in
every mode. -/

namespace Sys2Proof

/-! ### The rows of one mnemonic (spec/30_encoding.md R83) -/

/-- The opcode bytes and modes that the decoder's table has for a mnemonic. -/
def rowsOf (m : Mnemonic) : List (Byte × Mode) :=
  (opcodeRows.filter (·.mnemonic = m)).map fun r => (r.opcode, r.mode)

/-- The opcode byte of an instruction decodes to its mnemonic and mode. -/
theorem decodeOpcode_opcode (i : Instr) : decodeOpcode i.opcode = some (i.mnemonic, i.mode) := by
  cases i <;> rfl

theorem mem_rowsOf {i : Instr} {m : Mnemonic} (h : i.mnemonic = m) : (i.opcode, i.mode) ∈ rowsOf m := by
  obtain ⟨r, hr, hcols⟩ := Option.map_eq_some_iff.mp (decodeOpcode_opcode i)
  obtain ⟨hmem, hop⟩ := rowOf_some hr
  obtain ⟨hmn, hmode⟩ := Prod.mk.inj hcols
  have hrow : r.mnemonic = m := hmn.trans h
  exact List.mem_map.mpr ⟨r, List.mem_filter.mpr ⟨hmem, decide_eq_true hrow⟩, Prod.ext hop hmode⟩

end Sys2Proof

namespace Sys2Proof.Machine

/-! ### What every handler that reads its operand does (spec/40_addressing_modes.md R112) -/

theorem memoryKept_of_mem_eq {s t : State} (h : t.mem = s.mem) (but : List Word) : MemoryKept but s t :=
  fun b _ => memRead_congr h b

/-- A row that reads its operand completes: it works on the operand byte and then advances PC past the operand bytes. -/
theorem exec_next_of_withOperand {i : Instr} {s : State} {work : Byte → State → State}
    (h : i.mode ≠ .none ∧ exec i s = .next (withOperand i.operand work s)) (hpc : ∀ m, (work m s).pc = s.pc) :
    ∃ m, operandValue i.operand s = some m ∧ exec i s = .next (advancePc (operandLength i.operand) (work m s)) ∧
      PcAdvanced i s (advancePc (operandLength i.operand) (work m s)) := by
  obtain ⟨hmode, he⟩ := h
  obtain ⟨m, hm, ht⟩ := withOperand_of_memory_form hmode work s
  exact ⟨m, hm, ht ▸ he, ht ▸ pcAdvanced_withOperand hmode hpc⟩

/-! ### ADC (R150, spec/41_alu_helpers.md R122) -/

theorem flagsKept_addWithCarry (m : Byte) (s : State) :
    FlagsKept [.carry, .overflow, .zero, .negative] s (addWithCarry m s) := by
  intro f hf
  rw [flag_addWithCarry]
  cases f with
  | interruptDisable | decimal | break1 | break2 => rfl
  | carry | zero | overflow | negative => exact absurd (by decide) hf

/-- Settles O11: the handler adds the operand byte to A, which decides the four flags; nothing else but PC changes. -/
theorem adcResultAndFrame : Obligations.AdcResultAndFrame := by
  intro i s hadc
  obtain ⟨m, hm, he, hpc⟩ := exec_next_of_withOperand (exec_adc hadc s) fun _ => rfl
  obtain ⟨-, hx, hy, -, hmem, hfsm, herr⟩ := addWithCarry_fields m s
  have hflag (f : Flag) := flag_addWithCarry m s f
  have hneg : (addWithCarry m s).flag .negative = (addWithCarry m s).a.msb :=
    (hflag .negative).trans (BitVec.msb_eq_getLsbD_last _).symm
  exact ⟨m, _, hm, he, toNat_adcResult s.a m (s.flag .carry), hflag .carry, hflag .overflow, hflag .zero, hneg,
    flagsKept_addWithCarry m s, hx, hy, memoryKept_of_mem_eq hmem _, ⟨hfsm, herr⟩, hpc, mem_rowsOf hadc⟩

/-! ### CMP, CPX, CPY (R151 to R153, spec/41_alu_helpers.md R123) -/

theorem cmp8_eq_zero_iff (r m : Byte) : cmp8 r m = 0 ↔ r = m := sub_eq_zero

theorem cmp8_getLsbD_seven (r m : Byte) :
    (cmp8 r m).getLsbD 7 = decide (128 ≤ (r.toNat + 256 - m.toNat) % 256) := by
  have hm := m.isLt
  have hnat : (cmp8 r m).toNat = (r.toNat + 256 - m.toNat) % 256 := by
    rw [cmp8, BitVec.toNat_sub]
    omega
  calc (cmp8 r m).getLsbD 7 = (cmp8 r m).msb := (BitVec.msb_eq_getLsbD_last _).symm
    _ = decide (128 ≤ (cmp8 r m).toNat) := BitVec.msb_eq_decide _
    _ = decide (128 ≤ (r.toNat + 256 - m.toNat) % 256) := by rw [hnat]

theorem flagsKept_compareWith (r m : Byte) (s : State) :
    FlagsKept [.carry, .zero, .negative] s (compareWith r m s) := by
  intro f hf
  rw [flag_compareWith]
  cases f with
  | overflow | interruptDisable | decimal | break1 | break2 => rfl
  | carry | zero | negative => exact absurd (by decide) hf

/-- Settles O13: each mnemonic runs the one compare handler on its own register, and that handler writes three flags
and PC. -/
theorem compareResultAndFrame : Obligations.CompareResultAndFrame := by
  intro i s r rows h
  obtain ⟨hex, hrow⟩ : (i.mode ≠ .none ∧ exec i s = .next (compareHandler r i.operand s)) ∧ (i.opcode, i.mode) ∈ rows := by
    obtain ⟨hm, rfl, rfl⟩ | ⟨hm, rfl, rfl⟩ | ⟨hm, rfl, rfl⟩ := h
    · exact ⟨exec_cmp hm s, mem_rowsOf hm⟩
    · exact ⟨exec_cpx hm s, mem_rowsOf hm⟩
    · exact ⟨exec_cpy hm s, mem_rowsOf hm⟩
  obtain ⟨m, hm, he, hpc⟩ := exec_next_of_withOperand hex fun _ => rfl
  obtain ⟨ha, hx, hy, -, hmem, hfsm, herr⟩ := compareWith_fields r m s
  have hflag (f : Flag) := flag_compareWith r m s f
  have hzero : (compareWith r m s).flag .zero = decide (r = m) :=
    (hflag .zero).trans (decide_eq_decide.mpr (cmp8_eq_zero_iff r m))
  exact ⟨m, _, hm, he, hflag .carry, hzero, (hflag .negative).trans (cmp8_getLsbD_seven r m),
    flagsKept_compareWith r m s, ⟨ha, hx, hy⟩, memoryKept_of_mem_eq hmem _, ⟨hfsm, herr⟩, hpc, hrow⟩

end Sys2Proof.Machine
end

section
/-! PROOFS. Logical AND, arithmetic shift left and bit test (spec/44_logic_shift.md): result, flags, completion and
frame in every mode. -/

namespace Sys2Proof.Machine

/-! ### The flags that a chain of flag writes keeps (spec/10_state.md R25) -/

theorem flagsKept_setFlag {but : List Flag} {f : Flag} (hf : f ∈ but) (b : Bool) (s : State) :
    FlagsKept but s (setFlag f b s) :=
  fun _ hg => flag_setFlag_ne b s (ne_of_mem_of_not_mem hf hg).symm

theorem FlagsKept.trans {but : List Flag} {s t u : State} (h : FlagsKept but s t) (h' : FlagsKept but t u) :
    FlagsKept but s u :=
  fun f hf => (h' f hf).trans (h f hf)

/-- `update_zn` writes Zero and Negative only (spec/41_alu_helpers.md R120). -/
theorem flagsKept_updateZN {but : List Flag} (hz : .zero ∈ but) (hn : .negative ∈ but) (v : Byte) (s : State) :
    FlagsKept but s (updateZN v s) :=
  (flagsKept_setFlag hz _ s).trans (flagsKept_setFlag hn _ _)

/-! ### AND (R160) -/

/-- Settles O14: the handler writes `A & m` to A and Zero and Negative from it; nothing else but PC changes. -/
theorem andResultAndFrame : Obligations.AndResultAndFrame := by
  intro i s hand
  obtain ⟨m, hm, he, hpc⟩ := exec_next_of_withOperand (exec_and hand s) fun _ => rfl
  have hzero : (setA (and8 s.a m) s).flag .zero = decide (s.a &&& m = 0) := flag_updateZN _ _ .zero
  have hneg : (setA (and8 s.a m) s).flag .negative = (s.a &&& m).msb :=
    (flag_updateZN _ _ .negative).trans (BitVec.msb_eq_getLsbD_last _).symm
  have hkept : FlagsKept [.zero, .negative] s (setA (and8 s.a m) s) :=
    flagsKept_updateZN (by decide) (by decide) _ _
  exact ⟨m, _, hm, he, rfl, hzero, hneg, hkept, rfl, rfl, memoryKept_of_mem_eq rfl _, ⟨rfl, rfl⟩, hpc, mem_rowsOf hand⟩

/-! ### The shift as a number (spec/41_alu_helpers.md R123) -/

theorem toNat_asl8 (v : Byte) : (asl8 v).toNat = v.toNat * 2 % 256 := by
  rw [asl8, BitVec.toNat_shiftLeft, Nat.shiftLeft_eq]

theorem asl8_eq_zero_iff (v : Byte) : asl8 v = 0 ↔ v.toNat * 2 % 256 = 0 := by
  rw [← toNat_asl8]
  exact BitVec.toNat_inj.symm

theorem asl8_getLsbD_seven (v : Byte) : (asl8 v).getLsbD 7 = decide (128 ≤ v.toNat * 2 % 256) :=
  calc (asl8 v).getLsbD 7 = (asl8 v).msb := (BitVec.msb_eq_getLsbD_last _).symm
    _ = decide (128 ≤ (asl8 v).toNat) := BitVec.msb_eq_decide _
    _ = decide (128 ≤ v.toNat * 2 % 256) := by rw [toNat_asl8]

theorem asl8Carry_eq_msb (v : Byte) : asl8Carry v = v.msb := (BitVec.msb_eq_getLsbD_last v).symm

/-! ### ASL of the accumulator (R161) -/

theorem flagsKept_shiftA (s : State) : FlagsKept [.carry, .zero, .negative] s (shiftA s) :=
  (flagsKept_setFlag (by decide) (asl8Carry s.a) s).trans (flagsKept_updateZN (by decide) (by decide) _ _)

/-- Settles O15: the handler doubles A in 8 bits, which decides the three flags; nothing else changes. -/
theorem aslAccumulatorResultAndFrame : Obligations.AslAccumulatorResultAndFrame := by
  intro s
  obtain ⟨ha, hx, hy, hpc, hmem, hfsm, herr⟩ := shiftA_fields s
  have hflag (f : Flag) := flag_shiftA s f
  have hzero : (shiftA s).flag .zero = decide (s.a.toNat * 2 % 256 = 0) :=
    (hflag .zero).trans (decide_eq_decide.mpr (asl8_eq_zero_iff s.a))
  exact ⟨shiftA s, rfl, (congrArg BitVec.toNat ha).trans (toNat_asl8 s.a),
    (hflag .carry).trans (asl8Carry_eq_msb s.a), hzero, (hflag .negative).trans (asl8_getLsbD_seven s.a),
    flagsKept_shiftA s, hx, hy, memoryKept_of_mem_eq hmem _, ⟨hfsm, herr⟩, hpc, rfl⟩

/-! ### ASL of memory (R162) -/

/-- A row that works on its effective address completes: it works there and then advances PC past the operand bytes. -/
theorem exec_next_of_withAddress {i : Instr} {s : State} {work : Word → State → State}
    (h : i.mode ≠ .none ∧ exec i s = .next (withAddress i.operand work s)) (hpc : ∀ ea, (work ea s).pc = s.pc) :
    ∃ ea, effectiveAddress i.operand s = some ea ∧
      exec i s = .next (advancePc (operandLength i.operand) (work ea s)) ∧
      PcAdvanced i s (advancePc (operandLength i.operand) (work ea s)) := by
  obtain ⟨hmode, he⟩ := h
  obtain ⟨ea, hea, ht⟩ := withAddress_of_memory_form hmode work s
  exact ⟨ea, hea, ht ▸ he, ht ▸ pcAdvanced_withAddress hmode hpc⟩

/-- A state whose memory is that after one write reads as before at every other address. -/
theorem memoryKept_of_mem_eq_memWrite {s t : State} {addr : Word} {v : Byte} (h : t.mem = (memWrite addr v s).mem) :
    MemoryKept [addr] s t :=
  fun b hb => (memRead_congr h b).trans (memRead_memWrite_ne s v (List.ne_of_not_mem_cons hb))

theorem memRead_shiftMem {s : State} (hwf : s.mem.wf = true) (ea : Word) :
    memRead (shiftMem ea s) ea = asl8 (memRead s ea) :=
  memRead_memWrite_self ea (asl8 (memRead s ea)) hwf

theorem flagsKept_shiftMem (ea : Word) (s : State) : FlagsKept [.carry, .zero, .negative] s (shiftMem ea s) :=
  (flagsKept_setFlag (by decide) (asl8Carry (memRead s ea)) s).trans
    (flagsKept_updateZN (by decide) (by decide) (asl8 (memRead s ea)) _)

/-- The rows of ASL are that of the accumulator, which has no mode, and the four of R162. -/
theorem mem_rows_of_asl_memory {i : Instr} (h : i.mnemonic = .asl) (hmode : i.mode ≠ .none) :
    (i.opcode, i.mode) ∈
      [((0x06 : Byte), Mode.zeroPage), (0x16, .zeroPageX), (0x0E, .absolute), (0x1E, .absoluteX)] :=
  (List.mem_cons.mp (mem_rowsOf h)).resolve_left fun he => hmode (congrArg Prod.snd he)

/-- Settles O16: the handler doubles the byte at the effective address in place, which decides the three flags;
nothing else but PC changes. -/
theorem aslMemoryResultAndFrame : Obligations.AslMemoryResultAndFrame := by
  intro i s hasl hacc hwf
  have hex := exec_asl hasl hacc s
  obtain ⟨ea, hea, he, hpc⟩ := exec_next_of_withAddress hex fun _ => rfl
  obtain ⟨ha, hx, hy, -, hmem, hfsm, herr⟩ := shiftMem_fields ea s
  have hflag (f : Flag) := flag_shiftMem ea s f
  have hzero : (shiftMem ea s).flag .zero = decide ((memRead s ea).toNat * 2 % 256 = 0) :=
    (hflag .zero).trans (decide_eq_decide.mpr (asl8_eq_zero_iff _))
  exact ⟨ea, _, hea, he, (congrArg BitVec.toNat (memRead_shiftMem hwf ea)).trans (toNat_asl8 _),
    memoryKept_of_mem_eq_memWrite hmem, (hflag .carry).trans (asl8Carry_eq_msb _), hzero,
    (hflag .negative).trans (asl8_getLsbD_seven _), flagsKept_shiftMem ea s, ⟨ha, hx, hy⟩, ⟨hfsm, herr⟩, hpc,
    mem_rows_of_asl_memory hasl hex.1⟩

/-! ### BIT (R163) -/

theorem bitHandler_of_value {o : Operand} {s : State} {m : Byte} (h : operandValue o s = some m) (writesA : Bool) :
    bitHandler writesA o s = advancePc (operandLength o) (bitTest writesA m s) :=
  withOperand_of_value (bitTest writesA) h

/-- Settles O18: the two settings compute the same flags, and only one goes on to write A. -/
theorem bitVariantsDifferInAccumulatorOnly : Obligations.BitVariantsDifferInAccumulatorOnly := by
  intro o s m hm
  rw [bitHandler_of_value hm false, bitHandler_of_value hm true]
  exact ⟨rfl, rfl⟩

theorem flagsKept_bitTest (writesA : Bool) (m : Byte) (s : State) :
    FlagsKept [.zero, .negative, .overflow] s (bitTest writesA m s) := by
  intro f hf
  rw [flag_bitTest]
  cases f with
  | carry | interruptDisable | decimal | break1 | break2 => rfl
  | zero | negative | overflow => exact absurd (by decide) hf

/-- Settles O17: with the spec's setting the handler writes three flags and PC; the other setting differs from it as
`bitVariantsDifferInAccumulatorOnly` says. -/
theorem bitResultAndFrame : Obligations.BitResultAndFrame := by
  intro i s hbit
  obtain ⟨m, hm, he, hpc⟩ := exec_next_of_withOperand (exec_bit hbit s) fun _ => rfl
  obtain ⟨ha, hx, hy, -, hmem, hfsm, herr⟩ := bitTest_fields Config.bitWritesA m s
  have hflag (f : Flag) := flag_bitTest Config.bitWritesA m s f
  obtain ⟨-, hvariant⟩ := bitVariantsDifferInAccumulatorOnly i.operand s m hm
  rw [bitHandler_of_value hm false] at hvariant
  exact ⟨m, _, hm, he, hflag .zero, hflag .negative, hflag .overflow, flagsKept_bitTest _ m s, ⟨ha, hx, hy⟩,
    memoryKept_of_mem_eq hmem _, ⟨hfsm, herr⟩, hpc, hvariant, mem_rowsOf hbit⟩

end Sys2Proof.Machine
end

section
/-! PROOFS. The conditional branches (spec/45_branch.md): target, condition, completion and frame. -/

namespace Sys2Proof.Machine

/-! ### The target in numbers (R170, spec/00_scope.md R8) -/

/-- The sign extension of a byte is its two's-complement number modulo 65536. -/
theorem toNat_sext16 (b : Byte) : ((sext16 b).toNat : Int) = signedByte b % 65536 := by
  have hb := b.isLt
  have hsign : b.getLsbD 7 = decide (128 ≤ b.toNat) := BitVec.msb_eq_decide b
  have hhigh : (joinBytes 0xFF b).toNat = 255 * 256 + b.toNat := toNat_joinBytes 0xFF b
  rw [sext16, signedByte, hsign]
  by_cases hneg : 128 ≤ b.toNat
  · rw [if_pos (decide_eq_true hneg), if_neg (Nat.not_lt.mpr hneg), hhigh]
    omega
  · rw [if_neg (mt of_decide_eq_true hneg), if_pos (Nat.not_le.mp hneg), ← zext16, toNat_zext16]
    omega

theorem toNat_add_one (w : Word) : (w + 1).toNat = (w.toNat + 1) % 65536 := BitVec.toNat_add w 1

theorem toNat_pc_branchIf_true (rel8 : Byte) (s : State) :
    ((branchIf true rel8 s).pc.toNat : Int) = ((s.pc.toNat : Int) + 1 + signedByte rel8) % 65536 := by
  have hsext := toNat_sext16 rel8
  rw [branchIf_eq, if_pos rfl, BitVec.toNat_add, toNat_add_one]
  omega

theorem toNat_pc_branchIf_false (rel8 : Byte) (s : State) :
    (branchIf false rel8 s).pc.toNat = (s.pc.toNat + 1) % 65536 := toNat_add_one s.pc

/-! ### The eight branches (R170 to R178) -/

theorem branchIf_frame (cond : Bool) (rel8 : Byte) (s : State) :
    RegistersKept s (branchIf cond rel8 s) ∧ FlagsKept [] s (branchIf cond rel8 s) ∧
      MemoryKept [] s (branchIf cond rel8 s) ∧ DispatchKept s (branchIf cond rel8 s) := by
  rw [branchIf_eq]
  exact ⟨⟨rfl, rfl, rfl⟩, fun _ _ => rfl, memoryKept_of_mem_eq rfl [], ⟨rfl, rfl⟩⟩

/-- Settles O19: each branch is the common rule under its own condition, so one argument about that rule serves all
eight. -/
theorem branchResultAndFrame : Obligations.BranchResultAndFrame := by
  intro s rel8 b hb
  have hrow : encode b.2.1 = [b.1, rel8] ∧
      exec b.2.1 s = .next (branchIf (branchTaken b.2.1.mnemonic s) rel8 s) ∧
      (b.2.2 ↔ branchTaken b.2.1.mnemonic s = true) := by
    simp only [List.mem_cons, List.not_mem_nil, or_false] at hb
    obtain rfl | rfl | rfl | rfl | rfl | rfl | rfl | rfl := hb
    all_goals exact ⟨rfl, rfl, by simp [branchTaken, Instr.mnemonic]⟩
  obtain ⟨henc, hexec, hcond⟩ := hrow
  refine ⟨henc, _, hexec, fun htaken => ?_, fun hnot => ?_, branchIf_frame _ rel8 s⟩
  · rw [hcond.mp htaken]
    exact toNat_pc_branchIf_true rel8 s
  · rw [Bool.eq_false_iff.mpr (mt hcond.mpr hnot)]
    exact toNat_pc_branchIf_false rel8 s

end Sys2Proof.Machine
end

section
/-! PROOFS. The flag-clear instructions (spec/46_flag_clear.md): result, completion and frame. -/

namespace Sys2Proof.Machine

theorem flag_clearFlag_self (f : Flag) (s : State) : (clearFlag f s).flag f = false := flag_setFlag_self f false s

theorem clearFlag_frame (f : Flag) (s : State) :
    FlagsKept [f] s (clearFlag f s) ∧ RegistersKept s (clearFlag f s) ∧ MemoryKept [] s (clearFlag f s) ∧
      DispatchKept s (clearFlag f s) ∧ (clearFlag f s).pc = s.pc :=
  ⟨flagsKept_setFlag List.mem_cons_self false s, ⟨setFlag_a f false s, setFlag_x f false s, setFlag_y f false s⟩,
    memoryKept_of_mem_eq (setFlag_mem f false s) [], ⟨setFlag_fsm f false s, setFlag_err f false s⟩,
    setFlag_pc f false s⟩

/-- Settles O20: each of the four clears its own flag by the one shared operation, whose result and frame are stated
once for every flag. -/
theorem flagClearResultAndFrame : Obligations.FlagClearResultAndFrame := by
  intro s c hc
  have hrow : encode c.2.1 = [c.1] ∧ exec c.2.1 s = .next (clearFlag c.2.2 s) := by
    simp only [List.mem_cons, List.not_mem_nil, or_false] at hc
    obtain rfl | rfl | rfl | rfl := hc
    all_goals exact ⟨rfl, rfl⟩
  obtain ⟨henc, hexec⟩ := hrow
  exact ⟨henc, _, hexec, flag_clearFlag_self c.2.2 s, clearFlag_frame c.2.2 s⟩

end Sys2Proof.Machine
end

section
/-! PROOFS. Load and store accumulator (spec/47_load_store.md): result, flags, completion and frame in every mode. -/

namespace Sys2Proof.Machine

/-! ### LDA (R190, spec/41_alu_helpers.md R121) -/

theorem flag_zero_setA (v : Byte) (s : State) : (setA v s).flag .zero = decide (v = 0) :=
  flag_updateZN v { s with a := v } .zero

theorem flag_negative_setA (v : Byte) (s : State) : (setA v s).flag .negative = v.msb :=
  (flag_updateZN v { s with a := v } .negative).trans (BitVec.msb_eq_getLsbD_last v).symm

theorem flagsKept_setA (v : Byte) (s : State) : FlagsKept [.zero, .negative] s (setA v s) :=
  flagsKept_updateZN (by decide) (by decide) v { s with a := v }

/-- Settles O21: the handler writes the operand byte to A by `set_a`, which decides Zero and Negative; nothing else
but PC changes. -/
theorem ldaResultAndFrame : Obligations.LdaResultAndFrame := by
  intro i s hlda
  obtain ⟨m, hm, he, hpc⟩ := exec_next_of_withOperand (exec_lda hlda s) fun _ => rfl
  exact ⟨m, _, hm, he, setA_a m s, flag_zero_setA m s, flag_negative_setA m s, flagsKept_setA m s, setA_x m s,
    setA_y m s, memoryKept_of_mem_eq (setA_mem m s) [], ⟨setA_fsm m s, setA_err m s⟩, hpc, mem_rowsOf hlda⟩

/-! ### STA (R191) -/

/-- A write to memory leaves the flags, the registers and the dispatch state alone (spec/20_memory.md R52). -/
theorem memWrite_frame (addr : Word) (v : Byte) (s : State) :
    FlagsKept [] s (memWrite addr v s) ∧ RegistersKept s (memWrite addr v s) ∧ DispatchKept s (memWrite addr v s) :=
  ⟨fun f _ => flag_memWrite addr v s f, ⟨memWrite_a addr v s, memWrite_x addr v s, memWrite_y addr v s⟩,
    ⟨memWrite_fsm addr v s, memWrite_err addr v s⟩⟩

/-- Settles O22: the handler is one write of A to the effective address, and then PC advances. -/
theorem staResultAndFrame : Obligations.StaResultAndFrame := by
  intro i s hsta hwf
  obtain ⟨ea, hea, he, hpc⟩ := exec_next_of_withAddress (exec_sta hsta s) fun _ => rfl
  obtain ⟨hflags, hregs, hdispatch⟩ := memWrite_frame ea s.a s
  exact ⟨ea, _, hea, he, memRead_memWrite_self ea s.a hwf, memoryKept_of_mem_eq_memWrite rfl, hflags, hregs,
    hdispatch, hpc, mem_rowsOf hsta⟩

end Sys2Proof.Machine
end

section
/-! PROOFS. Decoder and encoder as inverses (spec/30_encoding.md): a list of bytes decodes to an instruction and a rest
exactly when it is the encoding of that instruction followed by that rest. -/

namespace Sys2Proof

/-! ### The operand bytes of a format (spec/30_encoding.md R80) -/

theorem Format.operandBytes_le_two (f : Format) : f.operandBytes ≤ 2 := by cases f <;> decide

theorem length_operandBytes (i : Instr) : i.operandBytes.length = i.format.operandBytes := by
  have h := encode_length i
  rw [encode, List.length_cons, Instr.length] at h
  omega

/-- The two bytes that the decoder looks at are the first two of the list, as far as the list goes. -/
theorem take_pair_getD {l : List Byte} {n : Nat} (hn : n ≤ 2) (hl : n ≤ l.length) :
    [l.getD 0 0, l.getD 1 0].take n = l.take n := by
  match n, l, hn, hl with
  | 0, _, _, _ => rfl
  | 1, _ :: _, _, _ => rfl
  | 2, _ :: _ :: _, _, _ => rfl

/-! ### One instruction (R82, R83) -/

theorem eq_joinBytes_of_bytes_eq {addr : Word} {lo hi : Byte} (h : [lowByte addr, highByte addr] = [lo, hi]) :
    addr = joinBytes hi lo := by
  obtain ⟨hlo, hhi⟩ : lowByte addr = lo ∧ highByte addr = hi := by simpa using h
  rw [← hlo, ← hhi, joinBytes_high_low]

/-- The converse of `decodeInstr_ok`: an opcode byte with its instruction's operand bytes after it decodes to it. -/
theorem decodeInstr_opcode {i : Instr} {lo hi : Byte} (h : i.operandBytes = [lo, hi].take i.format.operandBytes) :
    decodeInstr i.opcode lo hi = .ok i := by
  cases i with
  | aslAcc | clc | cld | cli | clv | tax | inx | brk => rfl
  | adcAbs | adcAbsX | adcAbsY | andAbs | andAbsX | andAbsY | aslAbs | aslAbsX | bitAbs | cmpAbs | cmpAbsX | cmpAbsY
  | cpxAbs | cpyAbs | ldaAbs | ldaAbsX | ldaAbsY | staAbs | staAbsX | staAbsY =>
    rw [eq_joinBytes_of_bytes_eq h]
    rfl
  | _ b =>
    obtain rfl : b = lo := List.head_eq_of_cons_eq h
    rfl

theorem decodeInstr_ok_iff_bytes {op lo hi : Byte} {i : Instr} :
    decodeInstr op lo hi = .ok i ↔ i.opcode = op ∧ i.operandBytes = [lo, hi].take i.format.operandBytes :=
  ⟨decodeInstr_ok, fun ⟨hop, hb⟩ => hop ▸ decodeInstr_opcode hb⟩

/-! ### A list of bytes -/

theorem decode_cons_ok_iff {op : Byte} {l rest : List Byte} {i : Instr} :
    decode (op :: l) = .ok (i, rest) ↔
      decodeInstr op (l.getD 0 0) (l.getD 1 0) = .ok i ∧ i.format.operandBytes ≤ l.length ∧
        l.drop i.format.operandBytes = rest := by
  rw [decode]
  cases decodeInstr op (l.getD 0 0) (l.getD 1 0) with
  | error e => simp
  | ok j =>
    simp only [Except.ok.injEq]
    by_cases hlen : l.length < j.format.operandBytes
    · rw [if_pos hlen]
      refine iff_of_false nofun ?_
      rintro ⟨rfl, hle, -⟩
      exact Nat.not_le.mpr hlen hle
    · rw [if_neg hlen, Except.ok.injEq, Prod.mk.injEq]
      refine and_congr_right ?_
      rintro rfl
      exact (and_iff_right (Nat.not_lt.mp hlen)).symm

/-- Decoding is the inverse of encoding, both ways. -/
theorem decode_ok_iff_encode {bytes rest : List Byte} {i : Instr} :
    decode bytes = .ok (i, rest) ↔ bytes = encode i ++ rest := by
  have hlen := length_operandBytes i
  cases bytes with
  | nil => simp [decode, encode]
  | cons op l =>
    rw [decode_cons_ok_iff, decodeInstr_ok_iff_bytes, encode, List.cons_append, List.cons.injEq]
    have htake := take_pair_getD (l := l) i.format.operandBytes_le_two
    constructor
    · rintro ⟨⟨hop, hb⟩, hle, rfl⟩
      exact ⟨hop.symm, by rw [hb, htake hle, List.take_append_drop]⟩
    · rintro ⟨rfl, rfl⟩
      have hle : i.format.operandBytes ≤ (i.operandBytes ++ rest).length := by
        rw [List.length_append]
        omega
      exact ⟨⟨rfl, by rw [htake hle, List.take_left' hlen]⟩, hle, List.drop_left' hlen⟩

/-- Settles O3: the encoding followed by the rest is what `decode_ok_iff_encode` asks for. -/
theorem decodeOfEncodeIsIdentity : Obligations.DecodeOfEncodeIsIdentity :=
  fun _ _ _ => decode_ok_iff_encode.mpr rfl

/-- Settles O4, by the other direction of `decode_ok_iff_encode`. -/
theorem encodeOfDecodeIsIdentity : Obligations.EncodeOfDecodeIsIdentity :=
  fun _ _ _ => decode_ok_iff_encode.mp

end Sys2Proof
end

section
/-! PROOFS. Register transfer and increment (spec/48_transfer_increment.md): result, flags, completion and frame. -/

namespace Sys2Proof.Machine

theorem flag_zero_setX (v : Byte) (s : State) : (setX v s).flag .zero = decide (v.toNat = 0) :=
  (flag_updateZN v { s with x := v } .zero).trans (decide_eq_decide.mpr BitVec.toNat_inj.symm)

theorem flag_negative_setX (v : Byte) (s : State) : (setX v s).flag .negative = decide (128 ≤ v.toNat) :=
  calc (setX v s).flag .negative = v.getLsbD 7 := flag_updateZN v { s with x := v } .negative
    _ = v.msb := (BitVec.msb_eq_getLsbD_last v).symm
    _ = decide (128 ≤ v.toNat) := BitVec.msb_eq_decide v

/-- A write of X changes X, Zero and Negative only. -/
theorem setX_frame (v : Byte) (s : State) :
    FlagsKept [.zero, .negative] s (setX v s) ∧ (setX v s).a = s.a ∧ (setX v s).y = s.y ∧
      MemoryKept [] s (setX v s) ∧ DispatchKept s (setX v s) ∧ (setX v s).pc = s.pc :=
  ⟨flagsKept_updateZN (by decide) (by decide) v { s with x := v }, setX_a v s, setX_y v s,
    memoryKept_of_mem_eq (setX_mem v s) [], ⟨setX_fsm v s, setX_err v s⟩, setX_pc v s⟩

/-- Settles O23: both instructions are the one write of X, which decides Zero and Negative; they differ in the value
written. -/
theorem transferIncrementResultAndFrame : Obligations.TransferIncrementResultAndFrame := by
  intro s c hc
  obtain ⟨henc, v, hexec, hv⟩ : encode c.2.1 = [c.1] ∧
      ∃ v, exec c.2.1 s = .next (setX v s) ∧ v.toNat = c.2.2 := by
    simp only [List.mem_cons, List.not_mem_nil, or_false] at hc
    obtain rfl | rfl := hc
    · exact ⟨rfl, s.a, rfl, rfl⟩
    · exact ⟨rfl, inc8 s.x, rfl, BitVec.toNat_add s.x 1⟩
  rw [← hv]
  exact ⟨henc, _, hexec, rfl, flag_zero_setX v s, flag_negative_setX v s, setX_frame v s⟩

end Sys2Proof.Machine
end

section
/-! PROOFS. The host's commands (spec/70_reset_and_hazards.md): which are accepted, and what Load, Reset and
LoadAndRun do. -/

namespace Sys2Proof.Machine

/-! ### Acceptance (R221, R224, R227) -/

theorem command_of_accepted {c : Command} {s : State} (h : commandRefusal c s = none) :
    command c s = .next (commandEffect c s) := by
  rw [command, h]

theorem command_of_refused {c : Command} {s : State} {r : Refusal} (h : commandRefusal c s = some r) :
    command c s = .refused r := by
  rw [command, h]

theorem exists_command_next_iff {c : Command} {s : State} :
    (∃ t, command c s = .next t) ↔ commandRefusal c s = none :=
  ⟨fun ⟨_, h⟩ => (command_next h).1, fun h => ⟨_, command_of_accepted h⟩⟩

theorem commandRefusal_of_running {c : Command} {s : State} (hr : s.fsm = .running) (hc : c ≠ .powerOn) :
    commandRefusal c s = some .commandWhileRunning := by
  cases c with
  | powerOn => exact absurd rfl hc
  | load | reset | run | loadAndRun => exact if_pos hr

/-- LoadAndRun is accepted exactly when its Load is. -/
theorem commandRefusal_loadAndRun (bytes : List Byte) (s : State) :
    commandRefusal (.loadAndRun bytes) s = commandRefusal (.load bytes) s := rfl

theorem programWellFormed_iff (bytes : List Byte) : programWellFormed bytes = true ↔ bytes.length ≤ 0x8000 :=
  decide_eq_true_iff

theorem commandRefusal_load {s : State} (hnr : s.fsm ≠ .running) (bytes : List Byte) :
    commandRefusal (.load bytes) s = if bytes.length ≤ 0x8000 then none else some .programTooLong :=
  (if_neg hnr).trans (if_congr (programWellFormed_iff bytes) rfl rfl)

theorem commandRefusal_load_eq_none_iff (bytes : List Byte) (s : State) :
    commandRefusal (.load bytes) s = none ↔ s.fsm ≠ .running ∧ bytes.length ≤ 0x8000 := by
  by_cases hr : s.fsm = .running
  · simp [commandRefusal_of_running hr, hr]
  · simp [commandRefusal_load hr, hr]

/-- Settles O44: a running block refuses each command but `PowerOn`, which it accepts in every state. -/
theorem onlyPowerOnIsAcceptedWhileRunning : Obligations.OnlyPowerOnIsAcceptedWhileRunning := by
  intro s c hr
  refine ⟨exists_command_next_iff.trans ⟨fun h => ?_, ?_⟩, fun hc => ?_⟩
  · by_contra hc
    exact not_running_of_accepted hc h hr
  · rintro rfl
    rfl
  · exact command_of_refused (commandRefusal_of_running hr hc)

/-- Settles O43: the one test of the length refuses both commands. -/
theorem oversizeLoadIsRefused : Obligations.OversizeLoadIsRefused := by
  intro s bytes hnr hlong
  have href : commandRefusal (.load bytes) s = some .programTooLong :=
    (commandRefusal_load hnr bytes).trans (if_neg (Nat.not_le.mpr hlong))
  exact ⟨command_of_refused href, command_of_refused ((commandRefusal_loadAndRun bytes s).trans href)⟩

/-! ### Reset (R222) -/

/-- Settles O40: `Reset` writes A, X, P, PC, `fsm` and `err`, and PC is the word at the vector. -/
theorem resetSetsRegistersFromTheVector : Obligations.ResetSetsRegistersFromTheVector := by
  intro s hnr
  exact ⟨resetBlock s, command_reset hnr, resetBlock_a s, resetBlock_x s, resetBlock_y s, resetBlock_p s,
    toNat_read16 s Config.resetVector, memoryKept_of_mem_eq (resetBlock_mem s) [], resetBlock_fsm s, resetBlock_err s⟩

/-! ### What Load leaves in memory (R221) -/

/-- Apart from the two bytes of the vector, memory is that of the program written over the old one. -/
theorem memRead_loadProgram_off_vector (bytes : List Byte) (s : State) {b : Word} (hlo : b ≠ 0xFFFC)
    (hhi : b ≠ 0xFFFD) : memRead (loadProgram bytes s) b = (s.mem.writeBytes Config.loadOrigin bytes).read b.toNat := by
  refine Memory.read_writeBytes_of_ne _ fun k hk => ?_
  have hk' : k < 2 := hk
  obtain rfl | rfl : k = 0 ∨ k = 1 := by omega
  · exact hlo
  · exact hhi

/-- The vector is written last, so it holds the load origin whatever the program is. -/
theorem memRead_loadProgram_vector (bytes : List Byte) {s : State} (hwf : s.mem.wf = true) :
    memRead (loadProgram bytes s) 0xFFFC = 0x00 ∧ memRead (loadProgram bytes s) 0xFFFD = 0x80 := by
  have hvector {k : Nat} (hk : k < 2) := Memory.read_writeBytes
    (bytes := [lowByte Config.loadOrigin, highByte Config.loadOrigin]) Config.resetVector
    (Memory.wf_writeBytes Config.loadOrigin bytes hwf) (by decide) hk
  exact ⟨hvector (k := 0) (by decide), hvector (k := 1) (by decide)⟩

theorem toNat_ofNat_loadOrigin_add {k : Nat} (hk : k < 0x8000) : (BitVec.ofNat 16 (0x8000 + k)).toNat = 0x8000 + k := by
  rw [BitVec.toNat_ofNat]
  omega

theorem memRead_loadProgram_program {bytes : List Byte} {s : State} (hwf : s.mem.wf = true)
    (hlen : bytes.length ≤ 0x8000) {k : Nat} (hk : k < bytes.length) (hlo : k ≠ 0x7FFC) (hhi : k ≠ 0x7FFD) :
    memRead (loadProgram bytes s) (BitVec.ofNat 16 (0x8000 + k)) = bytes[k] := by
  have hnat := toNat_ofNat_loadOrigin_add (Nat.lt_of_lt_of_le hk hlen)
  have hindex {w : Word} (h : BitVec.ofNat 16 (0x8000 + k) = w) : 0x8000 + k = w.toNat :=
    hnat.symm.trans (congrArg BitVec.toNat h)
  have hoff := memRead_loadProgram_off_vector bytes s (fun h => hlo (Nat.add_left_cancel (hindex h)))
    (fun h => hhi (Nat.add_left_cancel (hindex h)))
  rw [hoff, BitVec.ofNat_add]
  exact Memory.read_writeBytes Config.loadOrigin hwf (by omega) hk

theorem memRead_loadProgram_outside {bytes : List Byte} (s : State) (hlen : bytes.length ≤ 0x8000) {b : Word}
    (hout : b.toNat < 0x8000 ∨ 0x8000 + bytes.length ≤ b.toNat) (hlo : b ≠ 0xFFFC) (hhi : b ≠ 0xFFFD) :
    memRead (loadProgram bytes s) b = memRead s b := by
  rw [memRead_loadProgram_off_vector bytes s hlo hhi]
  refine Memory.read_writeBytes_of_ne _ fun k hk he => ?_
  have hnat : b.toNat = 0x8000 + k :=
    (congrArg BitVec.toNat (he.trans (BitVec.ofNat_add 0x8000 k).symm)).trans
      (toNat_ofNat_loadOrigin_add (Nat.lt_of_lt_of_le hk hlen))
  omega

/-- Settles O42: the program bytes are written first and the vector over them, and `Load` writes memory only. -/
theorem loadWritesProgramAndVectorOnly : Obligations.LoadWritesProgramAndVectorOnly := by
  intro s bytes hwf
  refine ⟨exists_command_next_iff.trans (commandRefusal_load_eq_none_iff bytes s), fun t h => ?_⟩
  obtain ⟨haccepted, rfl⟩ := command_next h
  obtain ⟨-, hlen⟩ := (commandRefusal_load_eq_none_iff bytes s).mp haccepted
  obtain ⟨hlo, hhi⟩ := memRead_loadProgram_vector bytes hwf
  exact ⟨fun _ => memRead_loadProgram_program hwf hlen, hlo, hhi, fun _ => memRead_loadProgram_outside s hlen,
    ⟨loadProgram_a bytes s, loadProgram_x bytes s, loadProgram_y bytes s⟩, loadProgram_pc bytes s,
    loadProgram_p bytes s, ⟨loadProgram_fsm bytes s, loadProgram_err bytes s⟩⟩

/-! ### LoadAndRun (R224) -/

/-- A Reset after a Load finds the load origin in the vector. -/
theorem pc_resetBlock_loadProgram (bytes : List Byte) {s : State} (hwf : s.mem.wf = true) :
    (resetBlock (loadProgram bytes s)).pc = 0x8000 := by
  obtain ⟨hlo, hhi⟩ := memRead_loadProgram_vector bytes hwf
  calc (resetBlock (loadProgram bytes s)).pc
      = joinBytes (memRead (loadProgram bytes s) 0xFFFD) (memRead (loadProgram bytes s) 0xFFFC) := rfl
    _ = 0x8000 := by rw [hlo, hhi]; rfl

/-- Settles O46: each of the three is accepted after the one before it, and LoadAndRun has their effects in turn. -/
theorem loadAndRunComposesTheCommands : Obligations.LoadAndRunComposesTheCommands := by
  intro s bytes hnr hwf hlen
  have hload : commandRefusal (.load bytes) s = none := (commandRefusal_load_eq_none_iff bytes s).mpr ⟨hnr, hlen⟩
  have hboth : commandRefusal (.loadAndRun bytes) s = none := (commandRefusal_loadAndRun bytes s).trans hload
  have hidle : (resetBlock (loadProgram bytes s)).fsm ≠ .running := by simp
  exact ⟨loadProgram bytes s, resetBlock (loadProgram bytes s), startRun (resetBlock (loadProgram bytes s)),
    command_of_accepted hload, command_reset hnr, runOnlyStartsTheRun _ hidle, command_of_accepted hboth,
    (startRun_pc _).trans (pc_resetBlock_loadProgram bytes hwf), rfl, rfl, rfl, rfl, rfl, rfl⟩

end Sys2Proof.Machine
end
